-- ==== Sys2Proof/Word.lean ====
section
/-! DEFINITION. The widths of 00_scope.md R7 as types. Every quantity is an unsigned bit vector (R8). -/

namespace Sys2Proof

/-- An octet of a frame (`OCTET_W`, R7). -/
abbrev Octet := BitVec 8

/-- The code of a symbol on the output (`SYM_W`, R7). -/
abbrev Sym := BitVec 8

/-- An index into the alphabet (`IDX_W`, R7). -/
abbrev Index := BitVec 6

/-- Three octets, the first most significant (`GROUP_N`, R7; 20_memory.md R31). -/
abbrev Group := BitVec 24

/-- Four symbol codes, the first most significant (20_memory.md R32). -/
abbrev Quad := BitVec 32

/-- The input beat word, format `IB` (30_encoding.md R39). -/
abbrev InWord := BitVec 10

/-- The output beat word, format `OB` (30_encoding.md R42). -/
abbrev OutWord := BitVec 34

/-- The register `cnt` (10_state.md R15). -/
abbrev Cnt := BitVec 2

/-- The register `hold` (10_state.md R14). -/
abbrev Hold := BitVec 16

end Sys2Proof
end

