-- ==== Sys2Proof/Syntax.lean ====
section
/-! DEFINITION. The operations of the block (41_stream_ops.md R67), one constructor per row of spec/opcode_table.json,
and the pseudo-operations of the textual form (30_encoding.md R50). -/

namespace Sys2Proof

/-- The block's instruction set: one operation per accepted input word (30_encoding.md R40). -/
inductive Instr where
  /-- `NULL`: idle, no operand (41_stream_ops.md R69). -/
  | null
  /-- `DATA d`: one octet of the frame (R70). -/
  | data (d : Octet)
  /-- `END`: end of frame, no operand (R71). -/
  | endFrame
  /-- `DLAST d`: the last octet and the end of the frame together (R72). -/
  | dlast (d : Octet)
  deriving DecidableEq, Repr

/-- The pseudo-operations (30_encoding.md R50); each stands for a list of operations. -/
inductive PseudoOp where
  /-- `FRAME b0, …`: the octets, then `END`. -/
  | frame (bs : List Octet)
  /-- `FRAMEL b0, …`: the octets, the last one in a `DLAST`. -/
  | framel (bs : List Octet)
  /-- `IDLE k`: `NULL`, `k` times. -/
  | idle (k : Nat)
  deriving DecidableEq, Repr

end Sys2Proof
end

