-- ==== Sys2Proof/WellFormed.lean ====
section
/-! DEFINITION. Which terms of the syntax are programs of the block. Every operation with every octet is legal
(30_encoding.md R44), so the check on `Instr` refuses nothing; of the pseudo-operations only `FRAMEL` of no octet is
not defined (R50). -/

namespace Sys2Proof

/-- 30_encoding.md R44: there is no illegal or reserved operation, and the octet's width is in its type. -/
def Instr.wellFormed : Instr → Bool
  | .null => true
  | .data _ => true
  | .endFrame => true
  | .dlast _ => true

/-- 30_encoding.md R50: `FRAMEL` is not defined for no octet. -/
def PseudoOp.wellFormed : PseudoOp → Bool
  | .frame _ => true
  | .framel bs => !bs.isEmpty
  | .idle _ => true

end Sys2Proof
end

