-- ==== Sys2Proof/Decode.lean ====
section
/-! DEFINITION. The input beat word (30_encoding.md R39), the operation map (R40) read in both directions, and the
expansion of the pseudo-operations (R50). Decoding is total over the 1024 words (R44); a number that is no 10-bit word
is rejected by name. -/

namespace Sys2Proof

/-- Bit 9 of the input beat word (30_encoding.md R39). -/
def InWord.last (w : InWord) : Bool := w.getLsbD 9

/-- Bit 8 of the input beat word (30_encoding.md R39). -/
def InWord.keep (w : InWord) : Bool := w.getLsbD 8

/-- Bits 7:0 of the input beat word, unsigned, neither shifted nor scaled (30_encoding.md R39, R41). -/
def InWord.data (w : InWord) : Octet := w.extractLsb' 0 8

/-- The word with the three given fields (30_encoding.md R39). -/
def inWord (last keep : Bool) (d : Octet) : InWord :=
  BitVec.ofBool last ++ BitVec.ofBool keep ++ d

/-- The operation map (30_encoding.md R40): `last` and `keep` alone select. -/
def decode (w : InWord) : Instr :=
  match w.last, w.keep with
  | false, false => .null
  | false, true => .data w.data
  | true, false => .endFrame
  | true, true => .dlast w.data

/-- The canonical word of an operation (30_encoding.md R40, R49): `data` is zero where it is ignored. -/
def encode : Instr → InWord
  | .null => inWord false false 0#8
  | .data d => inWord false true d
  | .endFrame => inWord true false 0#8
  | .dlast d => inWord true true d

/-- The word with its ignored field cleared (30_encoding.md R41, R49). -/
def InWord.canonical (w : InWord) : InWord :=
  if w.keep then w else inWord w.last w.keep 0#8

/-- The octet a word brings into the frame, if it has one (30_encoding.md R39, 20_memory.md R27). -/
def InWord.octets (w : InWord) : List Octet := if w.keep then [w.data] else []

/-- Why a number is no input beat word. -/
inductive WordReject where
  /-- The number needs more than ten bits (30_encoding.md R39: `0x000` to `0x3FF`). Raised by `readWord`; safe. -/
  | tooWide
  deriving DecidableEq, Repr

/-- The input beat word with the given number (30_encoding.md R39). -/
def readWord (n : Nat) : Except WordReject InWord :=
  if n < 1024 then .ok (BitVec.ofNat 10 n) else .error .tooWide

/-- The operation whose word has the given number. -/
def decodeNumber (n : Nat) : Except WordReject Instr :=
  match readWord n with
  | .ok w => .ok (decode w)
  | .error r => .error r

/-- The low `nbits` bits of `w` read as an input beat word. DESIGN CHOICE (entry 6), safe: bits above the tenth must be
zero. -/
def decodeTableWord (nbits w : Nat) : Option Instr :=
  match decodeNumber (w % 2 ^ nbits) with
  | .ok i => some i
  | .error _ => none

/-- The operations of `FRAMEL` (30_encoding.md R50); none for no octet. -/
def framelOps : List Octet → Option (List Instr)
  | [] => none
  | [b] => some [.dlast b]
  | b :: rest => (framelOps rest).map (Instr.data b :: ·)

/-- The expansion of a pseudo-operation (30_encoding.md R50). -/
def PseudoOp.expand : PseudoOp → Option (List Instr)
  | .frame bs => some (bs.map Instr.data ++ [.endFrame])
  | .framel bs => framelOps bs
  | .idle k => some (List.replicate k .null)

end Sys2Proof
end

