-- ==== Sys2Proof/Machine/Codec.lean ====
section
/-! DEFINITION. The alphabet (30_encoding.md R46 to R48), the three quad functions (40_reference_codec.md R58 to R60)
and the reference function the block must agree with (R57). -/

namespace Sys2Proof.Machine

/-- The pad symbol `=` (30_encoding.md R48). -/
def pad : Sym := 0x3D#8

/-- `S`, the code of the symbol with the given index (30_encoding.md R47). -/
def symCode (i : Index) : Sym :=
  if i ≤ 25#6 then 0x41#8 + i.setWidth 8
  else if i ≤ 51#6 then 0x61#8 + (i.setWidth 8 - 26#8)
  else if i ≤ 61#6 then 0x30#8 + (i.setWidth 8 - 52#8)
  else if i = 62#6 then 0x2B#8
  else 0x2F#8

/-- The table of 30_encoding.md R46, in index order. -/
def alphabet : List Char :=
  ['A', 'B', 'C', 'D', 'E', 'F', 'G', 'H', 'I', 'J', 'K', 'L', 'M', 'N', 'O', 'P']
    ++ ['Q', 'R', 'S', 'T', 'U', 'V', 'W', 'X', 'Y', 'Z', 'a', 'b', 'c', 'd', 'e', 'f']
    ++ ['g', 'h', 'i', 'j', 'k', 'l', 'm', 'n', 'o', 'p', 'q', 'r', 's', 't', 'u', 'v']
    ++ ['w', 'x', 'y', 'z', '0', '1', '2', '3', '4', '5', '6', '7', '8', '9', '+', '/']

/-- The 64 codes of 30_encoding.md R47 as its table lists them, in index order. -/
def alphabetCodes : List Sym :=
  [0x41, 0x42, 0x43, 0x44, 0x45, 0x46, 0x47, 0x48, 0x49, 0x4A, 0x4B, 0x4C, 0x4D, 0x4E, 0x4F, 0x50]
    ++ [0x51, 0x52, 0x53, 0x54, 0x55, 0x56, 0x57, 0x58, 0x59, 0x5A, 0x61, 0x62, 0x63, 0x64, 0x65, 0x66]
    ++ [0x67, 0x68, 0x69, 0x6A, 0x6B, 0x6C, 0x6D, 0x6E, 0x6F, 0x70, 0x71, 0x72, 0x73, 0x74, 0x75, 0x76]
    ++ [0x77, 0x78, 0x79, 0x7A, 0x30, 0x31, 0x32, 0x33, 0x34, 0x35, 0x36, 0x37, 0x38, 0x39, 0x2B, 0x2F]

/-- `Q4`, the quad of a full group (40_reference_codec.md R58). -/
def q4 (v : Group) : Quad :=
  symCode (v.extractLsb' 18 6) ++ symCode (v.extractLsb' 12 6) ++ symCode (v.extractLsb' 6 6)
    ++ symCode (v.extractLsb' 0 6)

/-- `Q1`, the quad of a remainder of one octet, left-justified over zeros (40_reference_codec.md R59, R61). -/
def q1 (o0 : Octet) : Quad :=
  let v : Group := o0 ++ 0x0000#16
  symCode (v.extractLsb' 18 6) ++ symCode (v.extractLsb' 12 6) ++ pad ++ pad

/-- `Q2`, the quad of a remainder of two octets, left-justified over zeros (40_reference_codec.md R60, R61). -/
def q2 (o0 o1 : Octet) : Quad :=
  let v : Group := o0 ++ o1 ++ 0x00#8
  symCode (v.extractLsb' 18 6) ++ symCode (v.extractLsb' 12 6) ++ symCode (v.extractLsb' 6 6) ++ pad

/-- The four codes of a quad, most significant byte first (40_reference_codec.md R57). -/
def bytes4 (q : Quad) : List Sym :=
  [q.extractLsb' 24 8, q.extractLsb' 16 8, q.extractLsb' 8 8, q.extractLsb' 0 8]

/-- The reference function `encode` of 40_reference_codec.md R57. -/
def refEncode : List Octet → List Sym
  | [] => []
  | [o0] => bytes4 (q1 o0)
  | [o0, o1] => bytes4 (q2 o0 o1)
  | o0 :: o1 :: o2 :: rest => bytes4 (q4 (o0 ++ o1 ++ o2)) ++ refEncode rest

end Sys2Proof.Machine
end

