-- ==== Sys2Proof/Config.lean ====
section
/-! DEFINITION. The constants of 00_scope.md R7, none of them an argument of the model, and the two values the spec
leaves open for the whole life of one chip: the registers' contents before the first reset step. -/

namespace Sys2Proof.Config

/-- 00_scope.md R7. -/
def octetW : Nat := 8
/-- 00_scope.md R7: octets in a group. -/
def groupN : Nat := 3
/-- 00_scope.md R7. -/
def idxW : Nat := 6
/-- 00_scope.md R7: symbols of the alphabet, the pad not counted. -/
def alphaN : Nat := 64
/-- 00_scope.md R7. -/
def symW : Nat := 8
/-- 00_scope.md R7. -/
def inW : Nat := 10
/-- 00_scope.md R7. -/
def outW : Nat := 34
/-- 00_scope.md R7: symbols in an output word. -/
def quadN : Nat := 4
/-- 00_scope.md R7. -/
def cntW : Nat := 2
/-- 00_scope.md R7. -/
def holdW : Nat := 16

/-- `cnt` at power-up, read by `Chip.powerUp` only: any of 0 to 3 (10_state.md R24, 93_implementation_defined.md U1).
DESIGN CHOICE (entry 4), safe: a constant with no body, so that no proof knows it. -/
opaque powerUpCnt : Cnt

/-- `hold` at power-up, read there too: any value (10_state.md R24, 93_implementation_defined.md U1). DESIGN CHOICE (entry 4), safe. -/
opaque powerUpHold : Hold

end Sys2Proof.Config
end

