-- ==== Sys2Proof/Machine/State.lean ====
section
/-! DEFINITION. The state of the block (10_state.md R13) with the two streams it reads and writes (20_memory.md R25),
the reasons the model can stop, and the reset state (10_state.md R24). There is no program counter, no general register,
no flag, no control register and no addressed memory (10_state.md R16, R17, R20, R21; 20_memory.md R25). -/

namespace Sys2Proof.Machine

/-- `cnt` and `hold` are the whole state of the block (10_state.md R13). `input` is the part of the input stream not
consumed yet, next word first (20_memory.md R26); `output` is the output stream so far, oldest word first (R28).
DESIGN CHOICE (entry 1), safe: the streams stand in State because a step is a function of the state alone. -/
structure State where
  /-- The phase, 2 bits: how many octets are held (10_state.md R15). -/
  cnt : Cnt
  /-- The held octets, 16 bits, the first in bits 15:8 (10_state.md R14). -/
  hold : Hold
  /-- The input stream from its next word on (20_memory.md R26, R29). -/
  input : List InWord
  /-- The output stream from its first word on (20_memory.md R28, R30). -/
  output : List OutWord
  deriving DecidableEq, Repr

/-- The block has no fault (60_exceptions.md R89: a step never answers a fault), so this type has no constructor:
nobody raises one. -/
inductive Fault where
  deriving DecidableEq, Repr

/-- Why the model gives no meaning. -/
inductive Refusal where
  /-- The operation has no meaning in the model yet. Raised by an arm of `exec` only; safe. -/
  | notModelled (mnemonic : String)
  /-- `cnt = 3`: the spec leaves every operation unspecified there and asks a model to refuse
  (93_implementation_defined.md U2, 10_state.md R15). Raised by every operation through `State.commit`, and by
  `outPins`; safe: it cannot be reached from reset. -/
  | phaseThree
  /-- The block has not been reset since power-up (93_implementation_defined.md U1, 70_reset_and_hazards.md R105).
  Raised by `Chip.pins` whatever the pins, and by `Chip.edge` for a word offered with `rst = 0`; safe (entry 4). -/
  | notReset
  deriving DecidableEq, Repr

/-- The state after a reset step (10_state.md R24). DESIGN CHOICE (entry 2), unsafe: both streams are empty. -/
def State.reset : State :=
  { cnt := 0#2, hold := 0x0000#16, input := [], output := [] }

end Sys2Proof.Machine
end

