-- ==== Sys2Proof/Machine/Operands.lean ====
section
/-! DEFINITION. The implicit operands of every operation, `cnt` and `hold` (10_state.md R17), as the meanings read
them. The explicit operand is the octet of the word, used as it stands (30_encoding.md R41). -/

namespace Sys2Proof.Machine

/-- The three phases an operation is defined in (10_state.md R15). -/
inductive Phase where
  /-- No octet held. -/
  | zero
  /-- One octet held. -/
  | one
  /-- Two octets held. -/
  | two
  deriving DecidableEq, Repr

/-- The phase a value of `cnt` stands for; none for 3 (10_state.md R15, 93_implementation_defined.md U2). -/
def phaseOf (c : Cnt) : Option Phase :=
  if c = 0#2 then some .zero
  else if c = 1#2 then some .one
  else if c = 2#2 then some .two
  else none

/-- `hold[15:8]`, the first octet of the group (10_state.md R14). -/
def firstHeld (h : Hold) : Octet := h.extractLsb' 8 8

/-- `hold[7:0]`, the second octet of the group (10_state.md R14). -/
def secondHeld (h : Hold) : Octet := h.extractLsb' 0 8

/-- The group value of the two held octets and a third, first octet most significant (20_memory.md R31). -/
def groupOf (h : Hold) (d : Octet) : Group := firstHeld h ++ secondHeld h ++ d

end Sys2Proof.Machine
end

