-- ==== Sys2Proof/Machine/Ops.lean ====
section
/-! DEFINITION. The shared operations over the streams and the registers: the output word (30_encoding.md R42), the read
primitive `InBeat` (20_memory.md R29), the write primitive `Emit` (R30), the writes of one step landing together
(00_scope.md R10), and the reset step (70_reset_and_hazards.md R101). There is no exception to take and none to return
from (60_exceptions.md R89, R93, R94), so no operation for either. -/

namespace Sys2Proof

/-- The output word with the three given fields (30_encoding.md R42). -/
def outWord (last keep : Bool) (q : Quad) : OutWord :=
  BitVec.ofBool last ++ BitVec.ofBool keep ++ q

/-- Bit 33 (30_encoding.md R42). -/
def OutWord.last (w : OutWord) : Bool := w.getLsbD 33

/-- Bit 32 (30_encoding.md R42). -/
def OutWord.keep (w : OutWord) : Bool := w.getLsbD 32

/-- Bits 31:0 (30_encoding.md R42). -/
def OutWord.sym (w : OutWord) : Quad := w.extractLsb' 0 32

/-- The word `Q`: a quad inside a frame (30_encoding.md R43, R49). -/
def wordQ (q : Quad) : OutWord := outWord false true q

/-- The word `QL`: a quad that ends the frame (30_encoding.md R43, R49). -/
def wordQL (q : Quad) : OutWord := outWord true true q

/-- The word `EL`: the end of a frame, no symbol (30_encoding.md R43, R49). -/
def wordEL : OutWord := outWord true false 0#32

namespace Machine

/-- What one operation does, all at once: the registers' next values and the word emitted, if any
(41_stream_ops.md R67; 00_scope.md R10). -/
structure Effect where
  /-- The next `cnt`. -/
  cnt : Cnt
  /-- The next `hold`. -/
  hold : Hold
  /-- The word given to `Emit`. -/
  emitted : Option OutWord
  deriving DecidableEq, Repr

/-- The empty registers, with the word that ends a group or a frame (41_stream_ops.md R70 to R72). -/
def Effect.emptied (w : OutWord) : Effect := { cnt := 0#2, hold := 0x0000#16, emitted := some w }

/-- `Emit`: append at the tail of the output stream (20_memory.md R30). -/
def emitTo (out : List OutWord) : Option OutWord → List OutWord
  | none => out
  | some w => out ++ [w]

/-- Land an operation's writes together (00_scope.md R10); with no effect (`cnt = 3`) the model refuses
(93_implementation_defined.md U2; entry 3). -/
def State.commit (s : State) : Option Effect → Host.Outcome State Fault Refusal
  | some e => .next { s with cnt := e.cnt, hold := e.hold, output := emitTo s.output e.emitted }
  | none => .refused .phaseThree

/-- `InBeat`: the word at the head of the input stream, and the state without it (20_memory.md R29). -/
def State.nextBeat (s : State) : Option (InWord × State) :=
  match s.input with
  | [] => none
  | w :: ws => some (w, { s with input := ws })

/-- Offer a word at the head of the input stream. -/
def State.offer (w : InWord) (s : State) : State := { s with input := w :: s.input }

/-- The reset step (70_reset_and_hazards.md R101): the registers empty, nothing emitted, no word consumed
(60_exceptions.md R92), whatever the state was. -/
def State.resetStep (s : State) : State := { s with cnt := 0#2, hold := 0x0000#16 }

end Machine

end Sys2Proof
end

