-- ==== Sys2Proof/Machine/Stream.lean ====
section
/-! DEFINITION. The four stream operations (41_stream_ops.md R69 to R72). Each has its effect on the registers and the
output (none in the unspecified phase 3) and its meaning, which lands that effect. -/

namespace Sys2Proof.Machine

/-- `NULL` (41_stream_ops.md R69): no register written, nothing emitted. -/
def nullEffect (c : Cnt) (h : Hold) : Option Effect :=
  match phaseOf c with
  | some _ => some { cnt := c, hold := h, emitted := none }
  | none => none

/-- `DATA d` (41_stream_ops.md R70). -/
def dataEffect (d : Octet) (c : Cnt) (h : Hold) : Option Effect :=
  match phaseOf c with
  | some .zero => some { cnt := 1#2, hold := d ++ 0x00#8, emitted := none }
  | some .one => some { cnt := 2#2, hold := firstHeld h ++ d, emitted := none }
  | some .two => some (.emptied (wordQ (q4 (groupOf h d))))
  | none => none

/-- `END` (41_stream_ops.md R71). -/
def endEffect (c : Cnt) (h : Hold) : Option Effect :=
  match phaseOf c with
  | some .zero => some (.emptied wordEL)
  | some .one => some (.emptied (wordQL (q1 (firstHeld h))))
  | some .two => some (.emptied (wordQL (q2 (firstHeld h) (secondHeld h))))
  | none => none

/-- `DLAST d` (41_stream_ops.md R72). -/
def dlastEffect (d : Octet) (c : Cnt) (h : Hold) : Option Effect :=
  match phaseOf c with
  | some .zero => some (.emptied (wordQL (q1 d)))
  | some .one => some (.emptied (wordQL (q2 (firstHeld h) d)))
  | some .two => some (.emptied (wordQL (q4 (groupOf h d))))
  | none => none

/-- The meaning of `NULL` (41_stream_ops.md R69). -/
def execNull (s : State) : Host.Outcome State Fault Refusal := s.commit (nullEffect s.cnt s.hold)

/-- The meaning of `DATA d` (41_stream_ops.md R70). -/
def execData (d : Octet) (s : State) : Host.Outcome State Fault Refusal := s.commit (dataEffect d s.cnt s.hold)

/-- The meaning of `END` (41_stream_ops.md R71). -/
def execEnd (s : State) : Host.Outcome State Fault Refusal := s.commit (endEffect s.cnt s.hold)

/-- The meaning of `DLAST d` (41_stream_ops.md R72). -/
def execDlast (d : Octet) (s : State) : Host.Outcome State Fault Refusal := s.commit (dlastEffect d s.cnt s.hold)

end Sys2Proof.Machine
end

