-- ==== Sys2Proof/Machine/Dispatch.lean ====
section
/-! DEFINITION. The meaning of every operation, one arm each (41_stream_ops.md R68). -/

namespace Sys2Proof.Machine

def exec (i : Instr) (s : State) : Host.Outcome State Fault Refusal :=
  match i with
  | .null => Sys2Proof.Machine.execNull s
  | .data d => Sys2Proof.Machine.execData d s
  | .endFrame => Sys2Proof.Machine.execEnd s
  | .dlast d => Sys2Proof.Machine.execDlast d s

end Sys2Proof.Machine
end

