-- ==== Sys2Proof/Machine/Run.lean ====
section
/-! DEFINITION. What a step does with an accepted word, and the run of 70_reset_and_hazards.md R114: the fold of the step
over a finite list of words. -/

namespace Sys2Proof.Machine

/-- Perform the operation an accepted word selects (41_stream_ops.md R68). -/
def accept (w : InWord) (s : State) : Host.Outcome State Fault Refusal := exec (decode w) s

/-- Run `f` on a next state; a stop stays a stop. -/
def andThen {σ τ : Type} (o : Host.Outcome σ Fault Refusal) (f : σ → Host.Outcome τ Fault Refusal) :
    Host.Outcome τ Fault Refusal :=
  match o with
  | .next s => f s
  | .fault r => .fault r
  | .refused r => .refused r

/-- A run over a finite list of words (70_reset_and_hazards.md R114). -/
def runWords : List InWord → State → Host.Outcome State Fault Refusal
  | [], s => .next s
  | w :: ws, s => andThen (accept w s) (runWords ws)

/-- The state a run ends in, if it did not stop. -/
def finalState : Host.Outcome State Fault Refusal → Option State
  | .next s => some s
  | .fault _ => none
  | .refused _ => none

end Sys2Proof.Machine
end

