-- ==== Sys2Proof/Machine/Step.lean ====
section
/-! DEFINITION. One step of the block (41_stream_ops.md R68): the word at the head of the input stream, decoded and
performed. -/

namespace Sys2Proof.Machine

/-- 41_stream_ops.md R68, 20_memory.md R29. With no word offered the block holds its state (60_exceptions.md R100).
DEDUCED (entry 5), safe. -/
def step (s : State) : Host.Outcome State Fault Refusal :=
  match s.nextBeat with
  | some (w, t) => accept w t
  | none => .next s

/-- The state with one more input word, to be consumed next (entry 6); a number that is no 10-bit word is no word of the
input stream and is not placed. -/
def State.withFetchWord (s : State) (nbits w : Nat) : State :=
  match readWord (w % 2 ^ nbits) with
  | .ok b => s.offer b
  | .error _ => s

end Sys2Proof.Machine
end

