-- ==== Sys2Proof/Machine/Frames.lean ====
section
/-! DEFINITION. The frames of the two streams (20_memory.md R27, R28), as functions of the word lists. -/

namespace Sys2Proof.Machine

/-- The symbols a word carries (20_memory.md R28). -/
def wordText (w : OutWord) : List Sym := if w.keep then bytes4 w.sym else []

/-- The text of a list of words, frame ends disregarded (20_memory.md R28). -/
def textOf (ws : List OutWord) : List Sym := ws.flatMap wordText

/-- The octets of a list of input words, frame ends disregarded (20_memory.md R27). -/
def octetsOf (ws : List InWord) : List Octet := ws.flatMap InWord.octets

/-- Cut a list into the pieces that an end mark closes and the piece left open. `acc` is the piece open at the start;
`payload` is what one word adds to its piece, `closes` what a word that ends a frame makes of it. -/
def cutAt {α β γ : Type} (ends : α → Bool) (payload : α → List β) (closes : List β → α → γ) :
    List β → List α → List γ × List β
  | acc, [] => ([], acc)
  | acc, w :: ws =>
    if ends w then
      let rest := cutAt ends payload closes [] ws
      (closes (acc ++ payload w) w :: rest.1, rest.2)
    else cutAt ends payload closes (acc ++ payload w) ws

/-- The complete input frames, in order, and the octets of the frame not ended yet (20_memory.md R27). -/
def inputFrames (ws : List InWord) : List (List Octet) × List Octet :=
  cutAt InWord.last InWord.octets (fun bs _ => bs) [] ws

/-- The same, each frame with the way it was ended: true for `DLAST`, false for `END` (41_stream_ops.md R79 (c)). -/
def inputForms (ws : List InWord) : List (List Octet × Bool) × List Octet :=
  cutAt InWord.last InWord.octets (fun bs w => (bs, w.keep)) [] ws

/-- The texts of the complete output frames, in order, and the text of the frame not ended yet (20_memory.md R28). -/
def outputFrames (ws : List OutWord) : List (List Sym) × List Sym :=
  cutAt OutWord.last wordText (fun t _ => t) [] ws

/-- The words of one whole frame of octets `bs`: they carry `bs`, and the last word, and no other, ends the frame
(41_stream_ops.md R77). `NULL` words may stand among them. -/
def isFrameOf (ws : List InWord) (bs : List Octet) : Prop :=
  octetsOf ws = bs ∧ ∃ front final, ws = front ++ [final] ∧ final.last = true ∧ ∀ w ∈ front, w.last = false

/-- The word is a `NULL` word (30_encoding.md R40). -/
def isNull (w : InWord) : Bool := !w.last && !w.keep

end Sys2Proof.Machine
end

