-- ==== Sys2Proof/Machine/Flags.lean ====
section
/-! DEFINITION. The block has no flags and no condition codes (10_state.md R20). What an operation's emission depends on
is this one condition on `cnt` and the word's two control bits (41_stream_ops.md R74). -/

namespace Sys2Proof.Machine

/-- `emits(cnt, w)`: the operation of `w` in phase `cnt` calls `Emit` (41_stream_ops.md R74, 10_state.md R19). Defined
for the three phases only. -/
def emits (c : Cnt) (w : InWord) : Bool := w.last || (w.keep && c == 2#2)

end Sys2Proof.Machine
end

