-- ==== Sys2Proof/Machine/Ports.lean ====
section
/-! DEFINITION. The cycle-level reference behaviour of the ports (10_state.md R18, R19; 70_reset_and_hazards.md R101 to
R103, R105, R107, R110): what the block drives in a cycle, and what a rising edge of `clk` does, first for a block that
has been reset, then from power-up on. At this level the words come in over the pins, so `State.input` is left alone
(entry 8). -/

namespace Sys2Proof.Machine

/-- The values of the input pins in one cycle (10_state.md R18); `clk` is the cycle itself. -/
structure InPins where
  rst : Bool
  inValid : Bool
  inLast : Bool
  inKeep : Bool
  inData : Octet
  outReady : Bool
  deriving DecidableEq, Repr

/-- The values of the output pins in one cycle (10_state.md R18). `payload` is `out_last`, `out_keep`, `out_sym` as one
word; it is none exactly when `out_valid = 0`, where the three pins are unspecified (93_implementation_defined.md U4;
entry 9). -/
structure OutPins where
  inReady : Bool
  outValid : Bool
  payload : Option OutWord
  deriving DecidableEq, Repr

/-- `{in_last, in_keep, in_data}` (10_state.md R19). -/
def InPins.word (p : InPins) : InWord := inWord p.inLast p.inKeep p.inData

/-- `in_ready` (10_state.md R19). -/
def InPins.inReady (p : InPins) : Bool := p.outReady && !p.rst

/-- `accepted` (10_state.md R19). -/
def InPins.accepted (p : InPins) : Bool := p.inValid && p.inReady

/-- The effect the operation `i` would have in the given registers. -/
def effectOf (i : Instr) (c : Cnt) (h : Hold) : Option Effect :=
  match i with
  | .null => nullEffect c h
  | .data d => dataEffect d c h
  | .endFrame => endEffect c h
  | .dlast d => dlastEffect d c h

/-- What a block that has been reset drives in a cycle (10_state.md R19; before: `Chip.pins`). A word offered when
`cnt = 3` has no specified answer (93_implementation_defined.md U2; entry 3). -/
def outPins (p : InPins) (s : State) : Host.Outcome OutPins Fault Refusal :=
  if p.inValid && !p.rst then
    match effectOf (decode p.word) s.cnt s.hold with
    | some e => .next { inReady := p.inReady, outValid := emits s.cnt p.word, payload := e.emitted }
    | none => .refused .phaseThree
  else .next { inReady := p.inReady, outValid := false, payload := none }

/-- A rising edge of `clk` at a block that has been reset (10_state.md R19; before: `Chip.edge`): the reset step, the
step for the accepted word, or nothing. -/
def cycle (p : InPins) (s : State) : Host.Outcome State Fault Refusal :=
  if p.rst then .next s.resetStep
  else if p.accepted then accept p.word s
  else .next s

/-- One clock edge for each entry of a trace of the input pins. -/
def runCycles : List InPins → State → Host.Outcome State Fault Refusal
  | [], s => .next s
  | p :: ps, s => andThen (cycle p s) (runCycles ps)

/-- The words accepted over a trace, in order (20_memory.md R26). -/
def acceptedWords (ps : List InPins) : List InWord := (ps.filter InPins.accepted).map InPins.word

/-- The word that crosses the output stream in a cycle: one is offered and the downstream is ready
(70_reset_and_hazards.md R107). -/
def crossing (p : InPins) (s : State) : List OutWord :=
  match outPins p s with
  | .next o => if o.outValid && p.outReady then o.payload.toList else []
  | .fault _ => []
  | .refused _ => []

/-- The words the downstream takes over a trace, in order (20_memory.md R28). -/
def takenWords : List InPins → State → List OutWord
  | [], _ => []
  | p :: ps, s =>
    match cycle p s with
    | .next t => crossing p s ++ takenWords ps t
    | .fault _ => crossing p s
    | .refused _ => crossing p s

/-- The upstream's duty from one cycle to the next (70_reset_and_hazards.md R107): a word offered and not accepted is
offered again unchanged. -/
def upstreamHolds (p p' : InPins) : Bool :=
  !(p.inValid && !p.inReady) || (p'.inValid && p'.word == p.word)

/-- The input pins of an upstream that offers the input stream's next word whenever there is one. -/
def streamPins (rst outReady : Bool) (s : State) : InPins :=
  match s.input with
  | [] => { rst, inValid := false, inLast := false, inKeep := false, inData := 0#8, outReady }
  | w :: _ => { rst, inValid := true, inLast := w.last, inKeep := w.keep, inData := w.data, outReady }

/-- The state with the offered word taken off the input stream if the cycle accepts it (20_memory.md R29). -/
def takeOffered (p : InPins) (s : State) : State :=
  if p.accepted then { s with input := s.input.tail } else s

/-- A rising edge with such an upstream: the accepted word leaves the input stream, an offered word that is not
accepted stays (60_exceptions.md R92). -/
def streamCycle (rst outReady : Bool) (s : State) : Host.Outcome State Fault Refusal :=
  cycle (streamPins rst outReady s) (takeOffered (streamPins rst outReady s) s)

/-- The block from power-up on (70_reset_and_hazards.md R105): before the first reset step, with whatever its registers
hold, or reset and in a state. DESIGN CHOICE (entry 4), safe: an unreset block is no `State`, so that no step and no run
starts there. -/
inductive Chip where
  | unreset (cnt : Cnt) (hold : Hold)
  | live (s : State)
  deriving DecidableEq, Repr

/-- The block at power-up: the registers' contents are the open constants (10_state.md R24; entry 4). -/
def Chip.powerUp : Chip := .unreset Config.powerUpCnt Config.powerUpHold

/-- What the block drives in a cycle. Before the first reset step no output pin has a specified value, whatever the
input pins (70_reset_and_hazards.md R105, 93_implementation_defined.md U1; entry 4). -/
def Chip.pins (p : InPins) : Chip → Host.Outcome OutPins Fault Refusal
  | .unreset _ _ => .refused .notReset
  | .live s => outPins p s

/-- A rising edge of `clk`. Before the first reset step: `rst = 1` is that step (70_reset_and_hazards.md R101); with no
word offered none can be accepted and the block stays unreset (10_state.md R19); a word offered with `rst = 0`, which
R105 forbids, may or may not be accepted (93_implementation_defined.md U1; entry 4). -/
def Chip.edge (p : InPins) : Chip → Host.Outcome Chip Fault Refusal
  | .unreset cnt hold =>
    if p.rst then .next (.live State.reset)
    else if p.inValid then .refused .notReset
    else .next (.unreset cnt hold)
  | .live s => andThen (cycle p s) fun t => .next (.live t)

/-- One clock edge for each entry of a trace of the input pins. -/
def Chip.edges : List InPins → Chip → Host.Outcome Chip Fault Refusal
  | [], chip => .next chip
  | p :: ps, chip => andThen (chip.edge p) (Chip.edges ps)

end Sys2Proof.Machine
end

