-- ==== Sys2Proof/Machine/RefDecoder.lean ====
section
/-! DEFINITION. The reference decoder of 42_reference_decoder.md: a function to state theorems with, no hardware
(R81). -/

namespace Sys2Proof.Machine

/-- The one failure of the reference decoder (42_reference_decoder.md R82); it carries nothing. -/
inductive DecodeError where
  /-- Malformed text: wrong length, a code outside the alphabet, a misplaced pad, or unused bits that are not zero
  (R84, R85). -/
  | malformed
  deriving DecidableEq, Repr

/-- `Sinv`, the index of a symbol code (42_reference_decoder.md R83). -/
def symIndex (c : Sym) : Option Index :=
  if 0x41#8 ≤ c ∧ c ≤ 0x5A#8 then some ((c - 0x41#8).setWidth 6)
  else if 0x61#8 ≤ c ∧ c ≤ 0x7A#8 then some ((c - 0x61#8 + 26#8).setWidth 6)
  else if 0x30#8 ≤ c ∧ c ≤ 0x39#8 then some ((c - 0x30#8 + 52#8).setWidth 6)
  else if c = 0x2B#8 then some 62#6
  else if c = 0x2F#8 then some 63#6
  else none

/-- The three octets of four indices (42_reference_decoder.md R85). -/
def groupOctets (i0 i1 i2 i3 : Index) : List Octet :=
  let v : Group := i0 ++ i1 ++ i2 ++ i3
  [v.extractLsb' 16 8, v.extractLsb' 8 8, v.extractLsb' 0 8]

/-- A quad with no pad (42_reference_decoder.md R85). -/
def decodeFullQuad (c0 c1 c2 c3 : Sym) : Except DecodeError (List Octet) :=
  match symIndex c0, symIndex c1, symIndex c2, symIndex c3 with
  | some i0, some i1, some i2, some i3 => .ok (groupOctets i0 i1 i2 i3)
  | _, _, _, _ => .error .malformed

/-- The last quad, with two, one or no pads (42_reference_decoder.md R85). -/
def decodeLastQuad (c0 c1 c2 c3 : Sym) : Except DecodeError (List Octet) :=
  match symIndex c0, symIndex c1 with
  | some i0, some i1 =>
    if c2 = pad then
      if c3 = pad then
        if i1.extractLsb' 0 4 = 0#4 then .ok [i0 ++ i1.extractLsb' 4 2] else .error .malformed
      else .error .malformed
    else if c3 = pad then
      match symIndex c2 with
      | some i2 =>
        if i2.extractLsb' 0 2 = 0#2 then .ok [i0 ++ i1.extractLsb' 4 2, i1.extractLsb' 0 4 ++ i2.extractLsb' 2 4]
        else .error .malformed
      | none => .error .malformed
    else decodeFullQuad c0 c1 c2 c3
  | _, _ => .error .malformed

/-- The quads of a text, the last one apart (42_reference_decoder.md R85). -/
def decodeQuads : List Sym → Except DecodeError (List Octet)
  | [] => .ok []
  | [c0, c1, c2, c3] => decodeLastQuad c0 c1 c2 c3
  | c0 :: c1 :: c2 :: c3 :: rest =>
    match decodeFullQuad c0 c1 c2 c3, decodeQuads rest with
    | .ok a, .ok b => .ok (a ++ b)
    | _, _ => .error .malformed
  | _ => .error .malformed

/-- The reference function `decode` (42_reference_decoder.md R82, R84, R85). -/
def refDecode (t : List Sym) : Except DecodeError (List Octet) :=
  if t.length % 4 = 0 then decodeQuads t else .error .malformed

end Sys2Proof.Machine
end

