-- ==== Sys2Proof/Machine/Text.lean ====
section
/-! DEFINITION. The textual form of programs and of output streams (30_encoding.md R49, R50), over lists of characters.
It has no effect on the block. -/

namespace Sys2Proof.Machine

/-- The hexadecimal digit of a number below 16. -/
def hexDigit (n : Nat) : Char := Char.ofNat (if n < 10 then 48 + n else 55 + n)

/-- The value of a hexadecimal digit, of either case (entry 13). -/
def hexValue (c : Char) : Option Nat :=
  if 48 ≤ c.toNat ∧ c.toNat ≤ 57 then some (c.toNat - 48)
  else if 65 ≤ c.toNat ∧ c.toNat ≤ 70 then some (c.toNat - 55)
  else if 97 ≤ c.toNat ∧ c.toNat ≤ 102 then some (c.toNat - 87)
  else none

/-- An octet as `0xHH` (30_encoding.md R49). -/
def printOctet (d : Octet) : List Char := ['0', 'x', hexDigit (d.toNat / 16), hexDigit (d.toNat % 16)]

/-- An operation as a line of the input notation (30_encoding.md R49). -/
def printInstr : Instr → List Char
  | .null => ['N', 'U', 'L', 'L']
  | .data d => ['D', 'A', 'T', 'A', ' '] ++ printOctet d
  | .endFrame => ['E', 'N', 'D']
  | .dlast d => ['D', 'L', 'A', 'S', 'T', ' '] ++ printOctet d

/-- The four characters of a quad in double quotes (30_encoding.md R49). -/
def printQuad (q : Quad) : List Char :=
  [Char.ofNat 34] ++ (bytes4 q).map (fun c => Char.ofNat c.toNat) ++ [Char.ofNat 34]

/-- An output word as a line of the output notation (30_encoding.md R49); the block never emits a word with neither
bit set (R43), and it has no line. -/
def printOut (w : OutWord) : Option (List Char) :=
  match w.last, w.keep with
  | false, true => some (['Q', ' '] ++ printQuad w.sym)
  | true, true => some (['Q', 'L', ' '] ++ printQuad w.sym)
  | true, false => some ['E', 'L']
  | false, false => none

/-- The text from its first character that is no space on. -/
def skipSpaces : List Char → List Char
  | [] => []
  | c :: cs => if c = ' ' then skipSpaces cs else c :: cs

/-- The text after a given beginning. -/
def afterWord : List Char → List Char → Option (List Char)
  | [], cs => some cs
  | _ :: _, [] => none
  | p :: ps, c :: cs => if p = c then afterWord ps cs else none

/-- Nothing but spaces and a comment is left on the line (30_encoding.md R49: `;` starts a comment). -/
def lineDone (cs : List Char) : Bool :=
  match skipSpaces cs with
  | [] => true
  | c :: _ => c == ';'

/-- Read decimal digits, leading zeros among them (entry 13): the number and what follows; none without a digit. -/
def readDecimal (acc : Option Nat) : List Char → Option (Nat × List Char)
  | [] => acc.map (·, [])
  | c :: cs =>
    if 48 ≤ c.toNat ∧ c.toNat ≤ 57 then readDecimal (some (10 * acc.getD 0 + (c.toNat - 48))) cs
    else acc.map (·, c :: cs)

/-- Read one octet: `0xHH`, a character in single quotes, or decimal (30_encoding.md R49). DESIGN CHOICE (entry 13),
safe: a `;` between single quotes is the octet `0x3B` and starts no comment. -/
def readOctet : List Char → Option (Octet × List Char)
  | '0' :: 'x' :: a :: b :: cs =>
    match hexValue a, hexValue b with
    | some x, some y => some (BitVec.ofNat 8 (16 * x + y), cs)
    | _, _ => none
  | '\'' :: c :: '\'' :: cs => if c.toNat < 128 then some (BitVec.ofNat 8 c.toNat, cs) else none
  | cs =>
    match readDecimal none cs with
    | some (n, rest) => if n < 256 then some (BitVec.ofNat 8 n, rest) else none
    | none => none

/-- Read octets separated by commas, to the end of the line; at most `fuel` of them (30_encoding.md R50). -/
def readOctets : Nat → List Char → Option (List Octet)
  | 0, _ => none
  | fuel + 1, cs =>
    match readOctet (skipSpaces cs) with
    | none => none
    | some (b, rest) =>
      match skipSpaces rest with
      | ',' :: more => (readOctets fuel more).map (b :: ·)
      | left => if lineDone left then some [b] else none

/-- Read one octet that ends the line. -/
def readLastOctet (cs : List Char) : Option Octet :=
  match readOctet (skipSpaces cs) with
  | some (d, rest) => if lineDone rest then some d else none
  | none => none

/-- Read one pseudo-operation (30_encoding.md R50). DESIGN CHOICE (entry 13), safe: the count of `IDLE`, whose numeral
form the spec leaves open, is read in decimal only, of any size. -/
def readPseudo (cs : List Char) : Option PseudoOp :=
  match afterWord ['F', 'R', 'A', 'M', 'E'] cs with
  | some rest =>
    if lineDone rest then some (.frame [])
    else
      match rest with
      | ' ' :: more => (readOctets more.length more).map .frame
      | 'L' :: ' ' :: more => (readOctets more.length more).map .framel
      | _ => none
  | none =>
    match afterWord ['I', 'D', 'L', 'E', ' '] cs with
    | some more =>
      match readDecimal none (skipSpaces more) with
      | some (k, rest) => if lineDone rest then some (.idle k) else none
      | none => none
    | none => none

/-- Read one operation; none where the line is none of the four (30_encoding.md R49). -/
def readInstr (cs : List Char) : Option Instr :=
  match afterWord ['N', 'U', 'L', 'L'] cs, afterWord ['E', 'N', 'D'] cs, afterWord ['D', 'A', 'T', 'A', ' '] cs,
    afterWord ['D', 'L', 'A', 'S', 'T', ' '] cs with
  | some rest, _, _, _ => if lineDone rest then some .null else none
  | _, some rest, _, _ => if lineDone rest then some .endFrame else none
  | _, _, some rest, _ => (readLastOctet rest).map .data
  | _, _, _, some rest => (readLastOctet rest).map .dlast
  | none, none, none, none => none

/-- The operations of one line: none for an empty line or a comment, one for an operation, the expansion for a
pseudo-operation (30_encoding.md R49, R50). -/
def assembleLine (line : List Char) : Option (List Instr) :=
  let cs := skipSpaces line
  if lineDone cs then some []
  else
    match readInstr cs with
    | some i => some [i]
    | none =>
      match readPseudo cs with
      | some p => p.expand
      | none => none

/-- The words of a program, one line after the other (30_encoding.md R49). -/
def assemble : List (List Char) → Option (List InWord)
  | [] => some []
  | line :: rest =>
    match assembleLine line, assemble rest with
    | some ops, some ws => some (ops.map encode ++ ws)
    | _, _ => none

end Sys2Proof.Machine
end

