-- ==== Sys2Proof/Safety.lean ====
section
/-! DEFINITION. What a good state, a good output word and a clean end of a run are. -/

namespace Sys2Proof.Machine

/-- The state invariant of 10_state.md R23: bytes of `hold` that hold no octet are zero, and `cnt` is not 3. -/
abbrev RegInv (s : State) : Prop :=
  s.cnt ≠ 3#2 ∧ (s.cnt = 0#2 → s.hold = 0x0000#16) ∧ (s.cnt = 1#2 → secondHeld s.hold = 0x00#8)

/-- The code is one of the 64 of 30_encoding.md R47. -/
def isAlpha (c : Sym) : Bool := alphabetCodes.contains c

/-- The four codes of a quad that ends a frame: the pad only fourth, or third and fourth (30_encoding.md R43). -/
def lastQuadShape (q : Quad) : Bool :=
  isAlpha (q.extractLsb' 24 8) && isAlpha (q.extractLsb' 16 8) &&
    ((isAlpha (q.extractLsb' 8 8) && (isAlpha (q.extractLsb' 0 8) || q.extractLsb' 0 8 == pad)) ||
      (q.extractLsb' 8 8 == pad && q.extractLsb' 0 8 == pad))

/-- The three shapes of an output word, `Q`, `QL` and `EL`; the word with neither bit set is none (30_encoding.md
R43). -/
def wordShape (w : OutWord) : Bool :=
  match w.last, w.keep with
  | false, true => (bytes4 w.sym).all isAlpha
  | true, true => lastQuadShape w.sym
  | true, false => w.sym == 0#32
  | false, false => false

/-- The invariant every step keeps: 10_state.md R23 of the registers, 30_encoding.md R43 of the output stream. -/
abbrev GoodState (s : State) : Prop := RegInv s ∧ s.output.all wordShape = true

/-- The registers are empty: the reset state of 10_state.md R24, left by every frame end (41_stream_ops.md R80). -/
abbrev EmptyRegs (s : State) : Prop := s.cnt = 0#2 ∧ s.hold = 0x0000#16

/-- The input words end on a frame boundary: they are all `NULL`, or the last one that is not has `last = 1`
(70_reset_and_hazards.md R114). -/
def onFrameBoundary (ws : List InWord) : Bool :=
  match (ws.filter (fun w => !isNull w)).getLast? with
  | none => true
  | some w => w.last

end Sys2Proof.Machine
end

