-- ==== Sys2Proof/Certificates/Slice0/Obligations.lean ====
section
/-! DEFINITION. The statements for the provers. Each docstring names the rule or the section of spec/ it formalises. The
premise `cnt ≠ 3` is the one the spec gives every operation (10_state.md R15, 93_implementation_defined.md U2; entry 3);
`StepKeepsTheInvariant` and `ResetStateIsEmptyAndGood` show that no run from reset leaves it. -/

open Sys2Proof Sys2Proof.Machine

/-! The four operations (41_stream_ops.md section 2) -/

/-- 41_stream_ops.md R69. Every word from `0x000` to `0x0FF` is `NULL`, brings no octet, and `NULL` completes in every
phase with no register written and nothing emitted. -/
def Obligations.NullChangesNothingInAnyPhase : Prop :=
  (∀ w : InWord, w.toNat ≤ 0x0FF → decode w = .null ∧ w.octets = []) ∧
    ∀ s : State, s.cnt ≠ 3#2 → exec .null s = .next s

/-- 41_stream_ops.md R70. The encoding of `DATA d`, and its next state in each of the three phases: the octet is stored,
or the group's quad is emitted and the registers are emptied. No pad is in a full group's quad. -/
def Obligations.DataStoresTheOctetOrEmitsTheGroup : Prop :=
  (∀ w : InWord, 0x100 ≤ w.toNat → w.toNat ≤ 0x1FF → decode w = .data (w.extractLsb' 0 8)) ∧
    (∀ (d : Octet) (s : State), s.cnt = 0#2 →
      exec (.data d) s = .next { s with cnt := 1#2, hold := d ++ 0x00#8 }) ∧
    (∀ (d : Octet) (s : State), s.cnt = 1#2 →
      exec (.data d) s = .next { s with cnt := 2#2, hold := s.hold.extractLsb' 8 8 ++ d }) ∧
    (∀ (d : Octet) (s : State), s.cnt = 2#2 →
      exec (.data d) s = .next { s with
        cnt := 0#2, hold := 0x0000#16,
        output := s.output ++
          [outWord false true (q4 (s.hold.extractLsb' 8 8 ++ s.hold.extractLsb' 0 8 ++ d))] }) ∧
    ∀ v : Group, pad ∉ bytes4 (q4 v)

/-- 41_stream_ops.md R71. The encoding of `END`, and its next state in each of the three phases: one word with `last = 1`
for a remainder of no, one or two octets, and empty registers. -/
def Obligations.EndEmitsTheRemainderAndEmpties : Prop :=
  (∀ w : InWord, 0x200 ≤ w.toNat → w.toNat ≤ 0x2FF → decode w = .endFrame) ∧
    (∀ s : State, s.cnt = 0#2 →
      exec .endFrame s = .next { s with
        cnt := 0#2, hold := 0x0000#16, output := s.output ++ [outWord true false 0x00000000#32] }) ∧
    (∀ s : State, s.cnt = 1#2 →
      exec .endFrame s = .next { s with
        cnt := 0#2, hold := 0x0000#16,
        output := s.output ++ [outWord true true (q1 (s.hold.extractLsb' 8 8))] }) ∧
    ∀ s : State, s.cnt = 2#2 →
      exec .endFrame s = .next { s with
        cnt := 0#2, hold := 0x0000#16,
        output := s.output ++ [outWord true true (q2 (s.hold.extractLsb' 8 8) (s.hold.extractLsb' 0 8))] }

/-- 41_stream_ops.md R72. The encoding of `DLAST d`, and its next state in each of the three phases: one word with
`last = 1` and `keep = 1`, and empty registers. A `DLAST` word always brings an octet, and only `DLAST` in phase 2 emits a
frame's last quad without a pad. -/
def Obligations.DlastEncodesTheLastOctetAndEmpties : Prop :=
  (∀ w : InWord, 0x300 ≤ w.toNat → decode w = .dlast (w.extractLsb' 0 8) ∧ w.octets = [w.extractLsb' 0 8]) ∧
    (∀ (d : Octet) (s : State), s.cnt = 0#2 →
      exec (.dlast d) s = .next { s with
        cnt := 0#2, hold := 0x0000#16, output := s.output ++ [outWord true true (q1 d)] }) ∧
    (∀ (d : Octet) (s : State), s.cnt = 1#2 →
      exec (.dlast d) s = .next { s with
        cnt := 0#2, hold := 0x0000#16,
        output := s.output ++ [outWord true true (q2 (s.hold.extractLsb' 8 8) d)] }) ∧
    (∀ (d : Octet) (s : State), s.cnt = 2#2 →
      exec (.dlast d) s = .next { s with
        cnt := 0#2, hold := 0x0000#16,
        output := s.output ++
          [outWord true true (q4 (s.hold.extractLsb' 8 8 ++ s.hold.extractLsb' 0 8 ++ d))] }) ∧
    ∀ (i : Instr) (s t : State) (q : Quad),
      exec i s = .next t → t.output = s.output ++ [outWord true true q] → pad ∉ bytes4 q →
        (∃ d : Octet, i = .dlast d) ∧ s.cnt = 2#2

/-- 41_stream_ops.md section 2 (the law that `DLAST d` is `DATA d` then `END`): the same registers and the same symbols
after; the same words in phases 0 and 1; in phase 2 `Q` and `EL` against one `QL` of the same quad. -/
def Obligations.DlastIsDataThenEndMerged : Prop :=
  ∀ (d : Octet) (s : State), s.cnt ≠ 3#2 →
    ∃ s₁ t u : State, exec (.data d) s = .next s₁ ∧ exec .endFrame s₁ = .next t ∧ exec (.dlast d) s = .next u ∧
      t.cnt = 0#2 ∧ t.hold = 0x0000#16 ∧ u.cnt = 0#2 ∧ u.hold = 0x0000#16 ∧
      textOf t.output = textOf u.output ∧
      (s.cnt ≠ 2#2 → t.output = u.output) ∧
      (s.cnt = 2#2 → ∃ q : Quad,
        t.output = s.output ++ [outWord false true q, outWord true false 0#32] ∧
          u.output = s.output ++ [outWord true true q])

/-- 41_stream_ops.md section 2 (when a step emits) and 20_memory.md section 1. The frame of all four operations: the rest
of the input stream is left alone, the words already emitted stay, and one word is appended exactly when
`last or (keep and cnt = 2)`, its `last` that of the input word; `NULL` leaves both registers. -/
def Obligations.AnOperationAppendsAtMostOneWord : Prop :=
  ∀ (w : InWord) (s : State), s.cnt ≠ 3#2 →
    ∃ t : State, exec (decode w) s = .next t ∧ t.input = s.input ∧
      (if w.getLsbD 9 || (w.getLsbD 8 && s.cnt == 2#2) then
        ∃ o : OutWord, t.output = s.output ++ [o] ∧ o.last = w.getLsbD 9
      else t.output = s.output) ∧
      (w.getLsbD 9 = false → w.getLsbD 8 = false → t.cnt = s.cnt ∧ t.hold = s.hold)

/-- 93_implementation_defined.md U2 and 60_exceptions.md section 1: an operation completes exactly when `cnt` is not 3;
there it is refused by name (entry 3, the model's reading of U2), and nothing ever faults. -/
def Obligations.OnlyPhaseThreeIsRefused : Prop :=
  ∀ (i : Instr) (s : State),
    ((∃ t : State, exec i s = .next t) ↔ s.cnt ≠ 3#2) ∧
      (s.cnt = 3#2 → exec i s = .refused .phaseThree) ∧ ∀ r : Fault, exec i s ≠ .fault r

/-! The step (41_stream_ops.md section 1) -/

/-- 41_stream_ops.md section 1 (dispatch) and 20_memory.md section 1 (`InBeat`): a step takes the head word off the input
stream and performs the operation it decodes to, on no other word. -/
def Obligations.StepRunsTheHeadWord : Prop :=
  ∀ (s : State) (w : InWord) (ws : List InWord), s.input = w :: ws →
    step s = exec (decode w) { s with input := ws }

/-- 60_exceptions.md section 4: with no word offered the block holds its state (entry 5, DEDUCED). -/
def Obligations.StepHoldsTheStateWhenNothingIsOffered : Prop :=
  ∀ s : State, s.input = [] → step s = .next s

/-- Entry 6 (the model's choice): a word placed from outside is the next one to run, and it runs as it decodes. -/
def Obligations.APlacedWordRunsNext : Prop :=
  ∀ (s : State) (nbits w : Nat) (i : Instr), decodeTableWord nbits w = some i →
    step (s.withFetchWord nbits w) = exec i s

/-- 20_memory.md section 1 (no look-ahead): two states that agree on the registers and on the next word take the same
registers and append the same words, whatever else is in their streams. -/
def Obligations.StepNeverLooksAhead : Prop :=
  ∀ (s s' t : State) (w : InWord) (ws ws' : List InWord),
    s.input = w :: ws → s'.input = w :: ws' → s.cnt = s'.cnt → s.hold = s'.hold → step s = .next t →
    ∃ (t' : State) (outs : List OutWord), step s' = .next t' ∧ t'.cnt = t.cnt ∧ t'.hold = t.hold ∧
      t.output = s.output ++ outs ∧ t'.output = s'.output ++ outs ∧ t'.input = ws'

/-! Encodings (30_encoding.md) -/

/-- 30_encoding.md R39 and R40: the three fields make up the word, `last` and `keep` alone select the operation, and every
one of the 1024 words selects one. -/
def Obligations.LastAndKeepSelectTheOperation : Prop :=
  (∀ w : InWord, w = BitVec.ofBool (w.getLsbD 9) ++ BitVec.ofBool (w.getLsbD 8) ++ w.extractLsb' 0 8) ∧
    ∀ w : InWord,
      (w.toNat / 256 = 0 → decode w = .null) ∧
        (w.toNat / 256 = 1 → decode w = .data (w.extractLsb' 0 8)) ∧
          (w.toNat / 256 = 2 → decode w = .endFrame) ∧
            (w.toNat / 256 = 3 → decode w = .dlast (w.extractLsb' 0 8))

/-- 30_encoding.md section 1 and section 5: decoding the word of an operation gives it back, encoding a decoded word
gives its canonical form, and two words decode alike exactly when their canonical forms are equal. -/
def Obligations.DecodeAndEncodeAgree : Prop :=
  (∀ i : Instr, i.wellFormed = true → decode (encode i) = i) ∧
    (∀ w : InWord, encode (decode w) = if w.getLsbD 8 then w else w &&& 0x300#10) ∧
      ∀ w w' : InWord, decode w = decode w' ↔ w.canonical = w'.canonical

/-- 30_encoding.md section 5, the table of word values: eight input words, written bit by bit, decode as the table says,
and its five output words have the values it gives. -/
def Obligations.TheTabledWordsReadAsTabled : Prop :=
  decode 0b0000000000#10 = .null ∧ decode 0b0100000000#10 = .data 0x00#8 ∧ decode 0b0101001101#10 = .data 0x4D#8 ∧
    decode 0b0111111111#10 = .data 0xFF#8 ∧ decode 0b1000000000#10 = .endFrame ∧
      decode 0b1010100101#10 = .endFrame ∧ decode 0b1101101110#10 = .dlast 0x6E#8 ∧
        decode 0b1111111111#10 = .dlast 0xFF#8 ∧
          outWord false true 0x54574675#32 = 0x154574675#34 ∧ outWord true true 0x54574675#32 = 0x354574675#34 ∧
            outWord true true 0x2F773D3D#32 = 0x32F773D3D#34 ∧ outWord true true 0x2F2F383D#32 = 0x32F2F383D#34 ∧
              outWord true false 0x00000000#32 = 0x200000000#34

/-- 30_encoding.md R42: the fields of the output word lie where the format has them, the symbols of its quad in order
from bit 31 down, and a word with `keep = 0` that an operation emits has `sym = 0`. -/
def Obligations.OutputWordFieldsLieAsTheFormatSays : Prop :=
  (∀ (l k : Bool) (c₀ c₁ c₂ c₃ : Sym),
    (outWord l k (c₀ ++ c₁ ++ c₂ ++ c₃)).getLsbD 33 = l ∧ (outWord l k (c₀ ++ c₁ ++ c₂ ++ c₃)).getLsbD 32 = k ∧
      (outWord l k (c₀ ++ c₁ ++ c₂ ++ c₃)).extractLsb' 24 8 = c₀ ∧
        (outWord l k (c₀ ++ c₁ ++ c₂ ++ c₃)).extractLsb' 16 8 = c₁ ∧
          (outWord l k (c₀ ++ c₁ ++ c₂ ++ c₃)).extractLsb' 8 8 = c₂ ∧
            (outWord l k (c₀ ++ c₁ ++ c₂ ++ c₃)).extractLsb' 0 8 = c₃) ∧
    ∀ (i : Instr) (s t : State) (o : OutWord),
      exec i s = .next t → t.output = s.output ++ [o] → o.getLsbD 32 = false → o.extractLsb' 0 32 = 0x00000000#32

/-- 30_encoding.md R46 and R47: the table of characters, the table of codes and the closed form of `S` agree at all 64
indices; `S` is injective, never the pad, never above `0x7A`, and never a URL-safe code. -/
def Obligations.SymbolCodesFollowTheAlphabet : Prop :=
  ∀ i : Index,
    alphabetCodes[i.toNat]? = some (symCode i) ∧
      (alphabet[i.toNat]?).map Char.toNat = some (symCode i).toNat ∧
        (i.toNat ≤ 25 → (symCode i).toNat = 0x41 + i.toNat) ∧
          (26 ≤ i.toNat → i.toNat ≤ 51 → (symCode i).toNat = 0x61 + (i.toNat - 26)) ∧
            (52 ≤ i.toNat → i.toNat ≤ 61 → (symCode i).toNat = 0x30 + (i.toNat - 52)) ∧
              (i.toNat = 62 → symCode i = 0x2B#8) ∧ (i.toNat = 63 → symCode i = 0x2F#8) ∧
                symCode i ≠ 0x3D#8 ∧ symCode i ≤ 0x7A#8 ∧ symCode i ≠ 0x2D#8 ∧ symCode i ≠ 0x5F#8 ∧
                  ∀ j : Index, symCode i = symCode j → i = j

/-- 30_encoding.md R50: the three expansions, and `FRAME` and `FRAMEL` of the same octets give the text `encode` gives,
in output words whose number differs, by the one `EL`, exactly when the length is a multiple of 3. -/
def Obligations.FrameAndFramelExpandToTheSameText : Prop :=
  (∀ bs : List Octet, (PseudoOp.frame bs).expand = some (bs.map Instr.data ++ [.endFrame])) ∧
    (∀ (bs : List Octet) (b : Octet),
      (PseudoOp.framel (bs ++ [b])).expand = some (bs.map Instr.data ++ [.dlast b])) ∧
    (PseudoOp.framel []).expand = none ∧ (∀ k : Nat, (PseudoOp.idle k).expand = some (List.replicate k .null)) ∧
    ∀ (bs : List Octet) (ops ops' : List Instr) (s : State), EmptyRegs s →
      (PseudoOp.frame bs).expand = some ops → (PseudoOp.framel bs).expand = some ops' →
      ∃ (t t' : State) (outs outs' : List OutWord),
        runWords (ops.map encode) s = .next t ∧ runWords (ops'.map encode) s = .next t' ∧
          t.output = s.output ++ outs ∧ t'.output = s.output ++ outs' ∧
            textOf outs = refEncode bs ∧ textOf outs' = refEncode bs ∧
              outs.length = outs'.length + (if bs.length % 3 = 0 then 1 else 0)

/-- 30_encoding.md section 5: a program printed in the notation and assembled again gives the words of its operations. -/
def Obligations.PrintedProgramsAssembleToTheirWords : Prop :=
  ∀ ops : List Instr, assemble (ops.map printInstr) = some (ops.map encode)

/-! The reference function (40_reference_codec.md) -/

/-- 40_reference_codec.md R55: the four symbols of a full group in terms of its octets. -/
def Obligations.AFullGroupIsSplitMostSignificantFirst : Prop :=
  ∀ o₀ o₁ o₂ : Octet,
    refEncode [o₀, o₁, o₂] = bytes4 (q4 (o₀ ++ o₁ ++ o₂)) ∧
      bytes4 (q4 (o₀ ++ o₁ ++ o₂)) =
        [symCode (o₀.extractLsb' 2 6), symCode (o₀.extractLsb' 0 2 ++ o₁.extractLsb' 4 4),
          symCode (o₁.extractLsb' 0 4 ++ o₂.extractLsb' 6 2), symCode (o₂.extractLsb' 0 6)]

/-- 40_reference_codec.md R59 and R60: the quads of the two remainders in terms of their octets, with zero fill and the
pads at the end. -/
def Obligations.RemaindersAreZeroFilledAndPadded : Prop :=
  (∀ o₀ : Octet,
    bytes4 (q1 o₀) = [symCode (o₀.extractLsb' 2 6), symCode (o₀.extractLsb' 0 2 ++ 0b0000#4), 0x3D#8, 0x3D#8] ∧
      symCode (o₀.extractLsb' 0 2 ++ 0b0000#4) ∈ [0x41#8, 0x51#8, 0x67#8, 0x77#8]) ∧
    ∀ o₀ o₁ : Octet,
      bytes4 (q2 o₀ o₁) =
          [symCode (o₀.extractLsb' 2 6), symCode (o₀.extractLsb' 0 2 ++ o₁.extractLsb' 4 4),
            symCode (o₁.extractLsb' 0 4 ++ 0b00#2), 0x3D#8] ∧
        (o₁.extractLsb' 0 4 ++ 0b00#2).toNat % 4 = 0

/-- 40_reference_codec.md section 1 (steps 1 and 2): group `g` of any input fills places `4g` to `4g+3` of the text, and
what follows the full groups is the text of the remainder. -/
def Obligations.GroupsAreTakenFromTheFront : Prop :=
  ∀ bs : List Octet,
    (∀ g : Nat, 3 * g + 2 < bs.length →
      ((refEncode bs).drop (4 * g)).take 4 =
        bytes4 (q4 (bs.getD (3 * g) 0#8 ++ bs.getD (3 * g + 1) 0#8 ++ bs.getD (3 * g + 2) 0#8))) ∧
      (refEncode bs).drop (4 * (bs.length / 3)) = refEncode (bs.drop (3 * (bs.length / 3)))

/-- 40_reference_codec.md R63: the length law, in its three forms. -/
def Obligations.TheTextHasFourSymbolsPerStartedGroup : Prop :=
  ∀ bs : List Octet,
    (refEncode bs).length = 4 * ((bs.length + 2) / 3) ∧ (refEncode bs).length % 4 = 0 ∧
      (bs.length % 3 = 0 → (refEncode bs).length = 4 * (bs.length / 3)) ∧
        (bs.length % 3 ≠ 0 → (refEncode bs).length = 4 * (bs.length / 3 + 1)) ∧ (refEncode []).length = 0

/-- 40_reference_codec.md section 3 (the padding law): no pad, the last two symbols, or the last symbol alone, by the
length modulo 3. -/
def Obligations.PadsStandAtTheEndOnly : Prop :=
  ∀ bs : List Octet,
    (bs.length % 3 = 0 → pad ∉ refEncode bs) ∧
      (bs.length % 3 = 1 → ∃ body : List Sym, refEncode bs = body ++ [pad, pad] ∧ pad ∉ body) ∧
        (bs.length % 3 = 2 → ∃ body : List Sym, refEncode bs = body ++ [pad] ∧ pad ∉ body)

/-- 40_reference_codec.md R62: only alphabet symbols and the pad at any length, no line break and no space. -/
def Obligations.TheTextHoldsAlphabetAndPadOnly : Prop :=
  ∀ (bs : List Octet) (c : Sym), c ∈ refEncode bs →
    (c ∈ alphabetCodes ∨ c = 0x3D#8) ∧ c ≠ 0x0D#8 ∧ c ≠ 0x0A#8 ∧ c ≠ 0x20#8

/-- 40_reference_codec.md section 3 (composition): `encode` distributes over concatenation at a group boundary, and
for a second part that is not empty nowhere else. -/
def Obligations.EncodeComposesAtGroupBoundaries : Prop :=
  (∀ xs ys : List Octet, xs.length % 3 = 0 → refEncode (xs ++ ys) = refEncode xs ++ refEncode ys) ∧
    ∀ xs ys : List Octet, xs.length % 3 ≠ 0 → ys ≠ [] → refEncode (xs ++ ys) ≠ refEncode xs ++ refEncode ys

/-- 40_reference_codec.md section 3: `encode` is injective. -/
def Obligations.EncodeIsInjective : Prop :=
  ∀ xs ys : List Octet, refEncode xs = refEncode ys → xs = ys

/-! The reference decoder (42_reference_decoder.md) -/

/-- 42_reference_decoder.md, the inverse symbol map: `Sinv` is the inverse of `S` and has no value elsewhere, the pad,
the URL-safe codes, white space and every code above `0x7F` among them. -/
def Obligations.TheInverseSymbolMapInvertsS : Prop :=
  (∀ (c : Sym) (i : Index), symIndex c = some i ↔ symCode i = c) ∧
    (∀ c ∈ [0x3D#8, 0x2D#8, 0x5F#8, 0x20#8, 0x0D#8, 0x0A#8], symIndex c = none) ∧
      ∀ c : Sym, 0x80#8 ≤ c → symIndex c = none

/-- 42_reference_decoder.md R84: a length that is no multiple of 4 and a code outside the alphabet and the pad are
rejected; the empty text is accepted. -/
def Obligations.DecodeRejectsWrongLengthAndForeignCodes : Prop :=
  (∀ t : List Sym, t.length % 4 ≠ 0 → refDecode t = .error .malformed) ∧
    (∀ (t : List Sym) (c : Sym), c ∈ t → (∀ i : Index, symCode i ≠ c) → c ≠ 0x3D#8 →
      refDecode t = .error .malformed) ∧
    refDecode [] = .ok []

/-- 42_reference_decoder.md R86: the round trip, of the function and of every frame that goes through the block. -/
def Obligations.DecodingTheBlocksTextGivesTheFrameBack : Prop :=
  (∀ bs : List Octet, refDecode (refEncode bs) = .ok bs) ∧
    ∀ (ws : List InWord) (s : State), EmptyRegs s →
      ∃ (t : State) (outs : List OutWord), runWords ws s = .next t ∧ t.output = s.output ++ outs ∧
        (outputFrames outs).1.map refDecode = (inputFrames ws).1.map Except.ok

/-- 42_reference_decoder.md, exactness: `decode` accepts exactly the texts `encode` produces, with their one origin. -/
def Obligations.DecodeAcceptsExactlyEncodedTexts : Prop :=
  ∀ (t : List Sym) (bs : List Octet), refDecode t = .ok bs ↔ t = refEncode bs

/-! Runs and frames (41_stream_ops.md section 4, 20_memory.md) -/

/-- 20_memory.md section 1 (the frames of the two streams): up to and with the first word that has `last = 1` stands the
first frame, made of what its words carry; the frames of the rest follow; without such a word the frame is open. -/
def Obligations.FramesAreTheStreamsCutAtTheirEnds : Prop :=
  (∀ (ws ws' : List InWord) (w : InWord), (∀ x ∈ ws, x.getLsbD 9 = false) → w.getLsbD 9 = true →
    inputFrames (ws ++ w :: ws') = (octetsOf (ws ++ [w]) :: (inputFrames ws').1, (inputFrames ws').2)) ∧
    (∀ ws : List InWord, (∀ x ∈ ws, x.getLsbD 9 = false) → inputFrames ws = ([], octetsOf ws)) ∧
    (∀ (os os' : List OutWord) (o : OutWord), (∀ x ∈ os, x.getLsbD 33 = false) → o.getLsbD 33 = true →
      outputFrames (os ++ o :: os') = (textOf (os ++ [o]) :: (outputFrames os').1, (outputFrames os').2)) ∧
    (∀ os : List OutWord, (∀ x ∈ os, x.getLsbD 33 = false) → outputFrames os = ([], textOf os)) ∧
    ∀ (ws : List InWord) (os : List OutWord),
      octetsOf ws = (ws.filter (fun w => w.getLsbD 8)).map (fun w => w.extractLsb' 0 8) ∧
        textOf os = ((os.filter (fun o => o.getLsbD 32)).map
          (fun o => [o.extractLsb' 24 8, o.extractLsb' 16 8, o.extractLsb' 8 8, o.extractLsb' 0 8])).flatten

/-- 41_stream_ops.md section 4 (the frame theorem): from empty registers, the words of one frame of any octets, `NULL`
words among them or not, give exactly the text of `encode`, the last word emitted and no other ends the output frame,
and the registers are empty again. -/
def Obligations.OneFrameGivesExactlyItsEncoding : Prop :=
  ∀ (ws : List InWord) (bs : List Octet) (s : State), EmptyRegs s → isFrameOf ws bs →
    ∃ (front : List OutWord) (final : OutWord),
      runWords ws s = .next { s with cnt := 0#2, hold := 0x0000#16, output := s.output ++ (front ++ [final]) } ∧
        textOf (front ++ [final]) = refEncode bs ∧ final.last = true ∧ ∀ w ∈ front, w.last = false

/-- 00_scope.md R2: whatever words arrive, the texts of the complete output frames are `encode` of the complete input
frames, in order and nothing else, and the text of the frame not ended yet is that of its full groups. -/
def Obligations.EveryOutputFrameIsTheEncodingOfItsInputFrame : Prop :=
  ∀ (ws : List InWord) (s : State), EmptyRegs s →
    ∃ (t : State) (outs : List OutWord), runWords ws s = .next t ∧ t.output = s.output ++ outs ∧
      (outputFrames outs).1 = (inputFrames ws).1.map refEncode ∧
        (outputFrames outs).2 = refEncode ((inputFrames ws).2.take (3 * ((inputFrames ws).2.length / 3)))

/-- 41_stream_ops.md section 4 (number of output words): a frame ended by `END` gives `floor(n/3) + 1` words, the last one
`EL` exactly when the length is a multiple of 3; a frame ended by `DLAST` gives `ceil(n/3)` words that all carry symbols;
either way `ceil(n/3)` words carry symbols. -/
def Obligations.WordsPerFrameFollowItsLength : Prop :=
  ∀ (bs : List Octet) (ops : List Instr) (s : State), EmptyRegs s →
    ((PseudoOp.frame bs).expand = some ops →
      ∃ (t : State) (outs : List OutWord), runWords (ops.map encode) s = .next t ∧ t.output = s.output ++ outs ∧
        outs.length = bs.length / 3 + 1 ∧ (outs.filter OutWord.keep).length = (bs.length + 2) / 3 ∧
          (outs.getLast? = some wordEL ↔ bs.length % 3 = 0)) ∧
      ((PseudoOp.framel bs).expand = some ops →
        ∃ (t : State) (outs : List OutWord), runWords (ops.map encode) s = .next t ∧ t.output = s.output ++ outs ∧
          outs.length = (bs.length + 2) / 3 ∧ (∀ w ∈ outs, w.keep = true) ∧
            ∃ (front : List OutWord) (q : Quad), outs = front ++ [outWord true true q] ∧ ∀ w ∈ front, w.last = false)

/-- 41_stream_ops.md section 4 (invariance laws (a) and (b)): taking out the `NULL` words, or clearing the ignored `data`
fields, changes neither the output nor the final state. -/
def Obligations.NullsAndIgnoredDataAreInvisible : Prop :=
  ∀ (ws : List InWord) (s : State), s.cnt ≠ 3#2 →
    runWords (ws.filter (fun w => w.getLsbD 9 || w.getLsbD 8)) s = runWords ws s ∧
      runWords (ws.map (fun w => if w.getLsbD 8 then w else w &&& 0x300#10)) s = runWords ws s

/-- 41_stream_ops.md section 4 (invariance law (c)): the run depends only on the frames' octets and on which operation
ends each. -/
def Obligations.TheRunDependsOnlyOnTheFrames : Prop :=
  ∀ (ws ws' : List InWord) (s : State), EmptyRegs s → inputForms ws = inputForms ws' → runWords ws s = runWords ws' s

/-- 41_stream_ops.md section 4 (frame independence): every frame end leaves empty registers, and what comes after a frame
end is emitted as from reset. -/
def Obligations.NothingIsCarriedAcrossAFrameEnd : Prop :=
  ∀ (ws ws' : List InWord) (w : InWord) (s t : State),
    w.last = true → runWords (ws ++ [w]) s = .next t →
    EmptyRegs t ∧
      ∃ u v : State, runWords (ws ++ [w] ++ ws') s = .next u ∧ runWords ws' State.reset = .next v ∧
        u.cnt = v.cnt ∧ u.hold = v.hold ∧ u.output = t.output ++ v.output

/-- 10_state.md section 1 (`cnt` and `hold`): the phase is the number of octets of the open frame modulo 3, and `hold` has
the octets after its full groups, the first most significant, over zeros. -/
def Obligations.TheRegistersHoldTheOpenGroup : Prop :=
  ∀ (ws : List InWord) (s t : State), EmptyRegs s → runWords ws s = .next t →
    t.cnt.toNat = (inputFrames ws).2.length % 3 ∧
      t.hold = match (inputFrames ws).2.drop (3 * ((inputFrames ws).2.length / 3)) with
        | [] => 0x0000#16
        | [a] => a ++ 0x00#8
        | a :: b :: _ => a ++ b

/-- 20_memory.md section 5 (ordering): a run over two lists is the run over the second after the run over the first, and
the words emitted by then stay first on the output stream, unchanged. -/
def Obligations.RunsAreSequentialAndOutputOnlyGrows : Prop :=
  ∀ (ws ws' : List InWord) (s t u : State), runWords ws s = .next t → runWords (ws ++ ws') s = .next u →
    runWords ws' t = .next u ∧ s.output <+: t.output ∧ t.output <+: u.output ∧ u.input = s.input

/-- 70_reset_and_hazards.md section 5: stepping the machine once for each word of its input stream is the fold of the
step over the list, and uses the stream up. -/
def Obligations.TheMachineRunsItsStreamAsTheFold : Prop :=
  ∀ s : State, s.cnt ≠ 3#2 →
    ∃ t : State, runWords s.input { s with input := [] } = .next t ∧
      Sys2Proof.core.run s.input.length s = .next t ∧ t.input = []

/-- 70_reset_and_hazards.md section 5, the half that holds: a run from reset whose words end on a frame boundary ends in
the empty state. -/
def Obligations.ARunThatEndsOnAFrameBoundaryEndsEmpty : Prop :=
  ∀ (ws : List InWord) (s : State), EmptyRegs s → onFrameBoundary ws = true →
    ∃ t : State, runWords ws s = .next t ∧ EmptyRegs t

/-- 70_reset_and_hazards.md section 5 as it is written there: the final state of a run from reset is the empty one if AND
ONLY if the words end on a frame boundary. It fails: three `DATA` words end a group, not a frame, and leave the empty
state (41_stream_ops.md R70; entry 7). -/
def Obligations.ARunEndsEmptyIffOnAFrameBoundary : Prop :=
  ∀ (ws : List InWord) (t : State), runWords ws State.reset = .next t → (EmptyRegs t ↔ onFrameBoundary ws = true)

/-! The invariant (10_state.md section 1, 30_encoding.md section 2) -/

/-- 10_state.md section 1 and 30_encoding.md section 2: from every state that has it, a step keeps the invariant of the
registers, and every word on the output stream has one of the three shapes. -/
def Obligations.StepKeepsTheInvariant : Prop :=
  ∀ s t : State, GoodState s → step s = .next t → GoodState t

/-- 10_state.md section 1 and section 2: a clock edge, a reset among them, keeps the same invariant. -/
def Obligations.AClockEdgeKeepsTheInvariant : Prop :=
  ∀ (p : InPins) (s t : State), GoodState s → cycle p s = .next t → GoodState t

/-- 60_exceptions.md section 1: a state with the invariant never stops, and stays in it for any number of steps. -/
def Obligations.NoRunFromAGoodStateStops : Prop :=
  ∀ (n : Nat) (s : State), GoodState s → ∃ t : State, Sys2Proof.core.run n s = .next t ∧ GoodState t

/-- 10_state.md section 3: the reset state's registers, and that it has the invariant; its empty streams are the model's
choice (entry 2). -/
def Obligations.ResetStateIsEmptyAndGood : Prop :=
  State.reset.cnt = 0#2 ∧ State.reset.hold = 0x0000#16 ∧ State.reset.input = [] ∧ State.reset.output = [] ∧
    GoodState State.reset

/-! Reset and the ports (10_state.md section 2, 70_reset_and_hazards.md) -/

/-- 70_reset_and_hazards.md R101 and R102: a clock edge with `rst = 1` empties the registers whatever the state (`cnt = 3`
too; before the first reset: `NothingIsSpecifiedBeforeTheFirstReset`) and the other pins, emits nothing and takes no word; repeating it changes nothing more. -/
def Obligations.AResetEdgeEmptiesTheRegisters : Prop :=
  ∀ (p p' : InPins) (s : State), p.rst = true → p'.rst = true →
    cycle p s = .next { s with cnt := 0#2, hold := 0x0000#16 } ∧
      ∀ t : State, cycle p s = .next t → cycle p' t = .next t

/-- 70_reset_and_hazards.md R103: in a cycle with `rst = 1` nothing is accepted and nothing offered; in the next cycle
the block behaves as in any cycle with empty registers. -/
def Obligations.NothingCrossesDuringReset : Prop :=
  (∀ (p : InPins) (s : State), p.rst = true →
    ∃ o : OutPins, outPins p s = .next o ∧ o.inReady = false ∧ o.outValid = false) ∧
    ∀ (p p' : InPins) (s t : State), p.rst = true → p'.rst = false → cycle p s = .next t →
      outPins p' t = outPins p' { s with cnt := 0#2, hold := 0x0000#16 } ∧
        cycle p' t = cycle p' { s with cnt := 0#2, hold := 0x0000#16 }

/-- 70_reset_and_hazards.md section 1 (reset in mid-frame): the held octets are lost without a word, and what follows is
emitted after the truncated words exactly as from reset. -/
def Obligations.AResetInMidFrameDropsTheHeldOctets : Prop :=
  ∀ (ws ws' : List InWord) (s t : State) (p : InPins), p.rst = true → runWords ws s = .next t →
    ∃ t' u v : State, cycle p t = .next t' ∧ t'.output = t.output ∧
      runWords ws' t' = .next u ∧ runWords ws' State.reset = .next v ∧
        u.cnt = v.cnt ∧ u.hold = v.hold ∧ u.output = t.output ++ v.output

/-- 10_state.md R19: the four port equations and the rising edge, with the payload the operation's own word. Of the
payload pins where `out_valid = 0` it says nothing. -/
def Obligations.ThePortsFollowTheirEquations : Prop :=
  ∀ (p : InPins) (s : State), s.cnt ≠ 3#2 →
    ∃ o : OutPins, outPins p s = .next o ∧
      o.inReady = (p.outReady && !p.rst) ∧ o.outValid = (p.inValid && emits s.cnt p.word && !p.rst) ∧
        (o.outValid = true → o.payload.isSome = true) ∧
          (∀ w : OutWord, o.payload = some w →
            ∃ t : State, exec (decode p.word) s = .next t ∧ t.output = s.output ++ [w]) ∧
            (∀ b : Bool, ∃ o' : OutPins, outPins { p with outReady := b } s = .next o' ∧
              o'.outValid = o.outValid ∧ (o.outValid = true → o'.payload = o.payload)) ∧
              cycle p s =
                if p.rst then .next { s with cnt := 0#2, hold := 0x0000#16 }
                else if p.inValid && o.inReady then exec (decode p.word) s
                else .next s

/-- 93_implementation_defined.md section 1: in a cycle with `out_valid = 0` the payload pins are unspecified. THE MODEL'S
CHOICE (entry 9): they have no value there. -/
def Obligations.ThePayloadPinsHaveNoValueWithoutOutValid : Prop :=
  ∀ (p : InPins) (s : State) (o : OutPins), outPins p s = .next o → o.outValid = false → o.payload = none

/-- 93_implementation_defined.md section 1 and 70_reset_and_hazards.md section 1: before the first reset step every output
pin is unspecified, and so is what a word offered with `rst = 0` does; with none offered the block stays unreset; a clock
edge with `rst = 1` gives the reset state. THE MODEL'S CHOICE (entry 4): what is unspecified is refused, by the name
`notReset`, and so are the pins of the cycle that ends in the first reset step. -/
def Obligations.NothingIsSpecifiedBeforeTheFirstReset : Prop :=
  ∀ (p : InPins) (c : Cnt) (h : Hold),
    Chip.pins p (.unreset c h) = .refused .notReset ∧
      (p.rst = false → p.inValid = true → Chip.edge p (.unreset c h) = .refused .notReset) ∧
        (p.rst = false → p.inValid = false → Chip.edge p (.unreset c h) = .next (.unreset c h)) ∧
          (p.rst = true → Chip.edge p (.unreset c h) = .next (.live State.reset))

/-- 70_reset_and_hazards.md section 2: if no word is offered before it, the first reset step makes the block, whatever its
registers held at power-up, the one that starts in the reset state: every trace of the pins after it completes as from
there, keeps the invariant, and shows the pins of the state it ends in. A word offered before it ends the trace (THE
MODEL'S CHOICE, entry 4). -/
def Obligations.TheFirstResetErasesThePowerUpState : Prop :=
  ∀ (qs ps : List InPins) (p : InPins) (c : Cnt) (h : Hold), (∀ q ∈ qs, q.rst = false ∧ q.inValid = false) →
    (p.rst = true → ∃ t : State, runCycles ps State.reset = .next t ∧ GoodState t ∧
      Chip.edges (qs ++ p :: ps) (.unreset c h) = .next (.live t) ∧
        ∀ p' : InPins, ∃ o : OutPins, outPins p' t = .next o ∧ Chip.pins p' (.live t) = .next o) ∧
      (p.rst = false → p.inValid = true → Chip.edges (qs ++ p :: ps) (.unreset c h) = .refused .notReset)

/-- 70_reset_and_hazards.md section 3 (back-pressure and progress): without `out_ready` nothing is accepted and the state
is kept; with a valid word, `out_ready` and no reset, the step is taken in that cycle. -/
def Obligations.BackPressureStallsAndNothingElseDoes : Prop :=
  ∀ (p : InPins) (s : State), p.rst = false →
    (p.outReady = false → cycle p s = .next s) ∧ (p.inValid = false → cycle p s = .next s) ∧
      (p.inValid = true → p.outReady = true → s.cnt ≠ 3#2 →
        ∃ t : State, cycle p s = .next t ∧ exec (decode p.word) s = .next t)

/-- 70_reset_and_hazards.md section 3 (handshake): with an upstream that holds its word, an output word that is offered
and not taken is offered again unchanged in the next cycle. -/
def Obligations.AnOfferedOutputWordIsHeld : Prop :=
  ∀ (p p' : InPins) (s t : State) (o : OutPins), p.rst = false → p'.rst = false → upstreamHolds p p' = true →
    outPins p s = .next o → o.outValid = true → p.outReady = false → cycle p s = .next t →
    ∃ o' : OutPins, outPins p' t = .next o' ∧ o'.outValid = true ∧ o'.payload = o.payload

/-- 10_state.md section 2 against 41_stream_ops.md section 1: over any trace of the pins without a reset, whatever the
stalls, the clock edges do what the fold of the step over the accepted words does. -/
def Obligations.ClockEdgesRefineTheFoldOfTheStep : Prop :=
  ∀ (ps : List InPins) (s : State), (∀ p ∈ ps, p.rst = false) →
    runCycles ps s = runWords (acceptedWords ps) s

/-- 20_memory.md section 1 (`Emit`) at the ports: over any trace of the pins, resets among them, the words the downstream
takes are the words emitted, in order, none lost, added or repeated. -/
def Obligations.TheDownstreamTakesExactlyTheEmittedWords : Prop :=
  ∀ (ps : List InPins) (s t : State), runCycles ps s = .next t → t.output = s.output ++ takenWords ps s

/-- 60_exceptions.md section 1 (simultaneous events) and 70_reset_and_hazards.md section 3: fed from the input stream, a
clock edge is the step when the downstream is ready; with `rst = 1` the offered word stays offered; without `out_ready`
nothing changes. -/
def Obligations.StepIsTheClockEdgeOfAReadyStream : Prop :=
  ∀ (s : State) (b : Bool),
    streamCycle false true s = step s ∧
      streamCycle true b s = .next { s with cnt := 0#2, hold := 0x0000#16 } ∧
        streamCycle false false s = .next s
end

