-- ==== Sys2Proof/Laws/Words.lean ====
section
/-! SUPPORT. Slices of concatenations, and the fields of the input word, the output word and the quad. -/

namespace Sys2Proof.Laws

open Sys2Proof.Machine

theorem slice_of_low {n m : Nat} (a : BitVec n) (b : BitVec m) (s l : Nat) (h : s + l ≤ m) :
    (a ++ b).extractLsb' s l = b.extractLsb' s l := by
  apply BitVec.eq_of_getLsbD_eq
  intro i hi
  have : s + i < m := by omega
  simp [BitVec.getLsbD_append, hi, this]

theorem slice_of_high {n m : Nat} (a : BitVec n) (b : BitVec m) (s l : Nat) (h : m ≤ s) :
    (a ++ b).extractLsb' s l = a.extractLsb' (s - m) l := by
  apply BitVec.eq_of_getLsbD_eq
  intro i hi
  have h₁ : ¬ s + i < m := by omega
  have h₂ : s - m + i = s + i - m := by omega
  simp [BitVec.getLsbD_append, hi, h₁, h₂]

theorem slice_of_slice {n : Nat} (a : BitVec n) (s l s' l' : Nat) (h : s' + l' ≤ l) :
    (a.extractLsb' s l).extractLsb' s' l' = a.extractLsb' (s + s') l' := by
  apply BitVec.eq_of_getLsbD_eq
  intro i hi
  have h₁ : s' + i < l := by omega
  simp [hi, h₁, Nat.add_assoc]

theorem slices_join {n : Nat} (a : BitVec n) (s l k : Nat) :
    a.extractLsb' (s + l) k ++ a.extractLsb' s l = a.extractLsb' s (k + l) := by
  apply BitVec.eq_of_getLsbD_eq
  intro i hi
  rw [BitVec.getLsbD_append]
  by_cases h : i < l
  · simp [h, hi]
  · have h₁ : s + l + (i - l) = s + i := by omega
    have h₂ : i - l < k := by omega
    simp [h, hi, h₁, h₂]

theorem ofBool_injective {a b : Bool} (h : BitVec.ofBool a = BitVec.ofBool b) : a = b := by
  revert a b; decide

theorem ofBool_bit {n : Nat} (a : BitVec n) (i : Nat) : BitVec.ofBool (a.getLsbD i) = a.extractLsb' i 1 := by
  apply BitVec.eq_of_getLsbD_eq
  intro j hj
  obtain rfl : j = 0 := by omega
  simp

/-! The input word (30_encoding.md R39) -/

@[simp] theorem inWord_last (l k : Bool) (d : Octet) : (inWord l k d).last = l := by
  revert l k d; decide

@[simp] theorem inWord_keep (l k : Bool) (d : Octet) : (inWord l k d).keep = k := by
  revert l k d; decide

@[simp] theorem inWord_data (l k : Bool) (d : Octet) : (inWord l k d).data = d :=
  (slice_of_low _ d 0 8 (by omega)).trans (by simp)

@[simp] theorem inWord_fields (w : InWord) : inWord w.last w.keep w.data = w := by
  simp only [inWord, InWord.last, InWord.keep, InWord.data, ofBool_bit]
  exact (congrArg (· ++ w.extractLsb' 0 8) (slices_join w 8 1 1)).trans ((slices_join w 0 8 2).trans (by simp))

/-- Every word is made of its three fields. -/
theorem exists_inWord (w : InWord) : ∃ l k d, w = inWord l k d := ⟨_, _, _, (inWord_fields w).symm⟩

@[simp] theorem inWord_octets (l k : Bool) (d : Octet) : (inWord l k d).octets = if k then [d] else [] := by
  simp [InWord.octets]

@[simp] theorem inWord_canonical (l k : Bool) (d : Octet) :
    (inWord l k d).canonical = inWord l k (if k then d else 0#8) := by
  cases k <;> simp [InWord.canonical]

@[simp] theorem decode_null_word (d : Octet) : decode (inWord false false d) = .null := by simp [decode]
@[simp] theorem decode_data_word (d : Octet) : decode (inWord false true d) = .data d := by simp [decode]
@[simp] theorem decode_end_word (d : Octet) : decode (inWord true false d) = .endFrame := by simp [decode]
@[simp] theorem decode_dlast_word (d : Octet) : decode (inWord true true d) = .dlast d := by simp [decode]

/-! The output word (30_encoding.md R42) and the quad (40_reference_codec.md R57) -/

@[simp] theorem outWord_last (l k : Bool) (q : Quad) : (outWord l k q).last = l := by
  have h : (outWord l k q).extractLsb' 33 1 = BitVec.ofBool l :=
    (slice_of_high _ q 33 1 (by omega)).trans
      ((slice_of_high (BitVec.ofBool l) (BitVec.ofBool k) 1 1 (by omega)).trans (by simp))
  have h' := ofBool_bit (outWord l k q) 33
  exact ofBool_injective (h'.trans h)

@[simp] theorem outWord_keep (l k : Bool) (q : Quad) : (outWord l k q).keep = k := by
  have h : (outWord l k q).extractLsb' 32 1 = BitVec.ofBool k :=
    (slice_of_high _ q 32 1 (by omega)).trans
      ((slice_of_low (BitVec.ofBool l) (BitVec.ofBool k) 0 1 (by omega)).trans (by simp))
  have h' := ofBool_bit (outWord l k q) 32
  exact ofBool_injective (h'.trans h)

@[simp] theorem outWord_sym (l k : Bool) (q : Quad) : (outWord l k q).sym = q :=
  (slice_of_low _ q 0 32 (by omega)).trans (by simp)

theorem outWord_slice (l k : Bool) (q : Quad) (s n : Nat) (h : s + n ≤ 32) :
    (outWord l k q).extractLsb' s n = q.extractLsb' s n :=
  slice_of_low _ q s n h

theorem wordQ_ne_wordEL (q : Quad) : wordQ q ≠ wordEL := fun h => by
  have h' := congrArg OutWord.last h
  simp [wordQ, wordEL] at h'

theorem wordQL_ne_wordEL (q : Quad) : wordQL q ≠ wordEL := fun h => by
  have h' := congrArg OutWord.keep h
  simp [wordQL, wordEL] at h'

theorem quad_slice_24 (a b c d : Sym) : (a ++ b ++ c ++ d).extractLsb' 24 8 = a :=
  (slice_of_high _ d 24 8 (by omega)).trans ((slice_of_high _ c _ 8 (by omega)).trans
    ((slice_of_high _ b _ 8 (by omega)).trans (by simp)))

theorem quad_slice_16 (a b c d : Sym) : (a ++ b ++ c ++ d).extractLsb' 16 8 = b :=
  (slice_of_high _ d 16 8 (by omega)).trans ((slice_of_high _ c _ 8 (by omega)).trans
    ((slice_of_low _ b _ 8 (by omega)).trans (by simp)))

theorem quad_slice_8 (a b c d : Sym) : (a ++ b ++ c ++ d).extractLsb' 8 8 = c :=
  (slice_of_high _ d 8 8 (by omega)).trans ((slice_of_low _ c _ 8 (by omega)).trans (by simp))

theorem quad_slice_0 (a b c d : Sym) : (a ++ b ++ c ++ d).extractLsb' 0 8 = d :=
  (slice_of_low _ d 0 8 (by omega)).trans (by simp)

/-- The codes of a quad put together from four codes. -/
theorem bytes4_cat (q : Quad) (a b c d : Sym) (h : q = a ++ b ++ c ++ d) : bytes4 q = [a, b, c, d] := by
  subst h
  exact congr (congrArg _ (quad_slice_24 a b c d)) (congr (congrArg _ (quad_slice_16 a b c d))
    (congr (congrArg _ (quad_slice_8 a b c d)) (congrArg (fun x => [x]) (quad_slice_0 a b c d))))

@[simp] theorem bytes4_length (q : Quad) : (bytes4 q).length = 4 := rfl

end Sys2Proof.Laws
end

