-- ==== Sys2Proof/Laws/Codec.lean ====
section
/-! SUPPORT. The symbol map and its inverse, and the quad functions as lists of codes. -/

namespace Sys2Proof.Laws

open Sys2Proof.Machine

theorem symCode_ne_pad (i : Index) : symCode i ≠ pad := by
  revert i; decide

theorem symCode_mem (i : Index) : symCode i ∈ alphabetCodes := by
  revert i; decide

@[simp] theorem symIndex_symCode (i : Index) : symIndex (symCode i) = some i := by
  revert i; decide

@[simp] theorem symIndex_pad : symIndex pad = none := by decide

theorem symCode_of_symIndex {c : Sym} {i : Index} (h : symIndex c = some i) : symCode i = c := by
  have all : ∀ c : Sym, (symIndex c).all (fun i => symCode i == c) = true := by decide
  have := all c
  simpa [h] using this

/-- The four indices of a group value, in terms of its octets (40_reference_codec.md R55). -/
theorem group_slice_18 (a b c : Octet) : (a ++ b ++ c).extractLsb' 18 6 = a.extractLsb' 2 6 :=
  (slice_of_high _ c 18 6 (by omega)).trans (slice_of_high a b 10 6 (by omega))

theorem group_slice_12 (a b c : Octet) :
    (a ++ b ++ c).extractLsb' 12 6 = a.extractLsb' 0 2 ++ b.extractLsb' 4 4 := by
  refine (slice_of_high _ c 12 6 (by omega)).trans ((slices_join (a ++ b) 4 4 2).symm.trans ?_)
  rw [slice_of_high a b _ _ (by omega), slice_of_low a b _ _ (by omega)]

theorem group_slice_6 (a b c : Octet) :
    (a ++ b ++ c).extractLsb' 6 6 = b.extractLsb' 0 4 ++ c.extractLsb' 6 2 := by
  refine (slices_join (a ++ b ++ c) 6 2 4).symm.trans ?_
  rw [slice_of_high _ c (6 + 2) 4 (by omega), slice_of_low _ c 6 2 (by omega), slice_of_low a b _ 4 (by omega)]

theorem group_slice_0 (a b c : Octet) : (a ++ b ++ c).extractLsb' 0 6 = c.extractLsb' 0 6 :=
  slice_of_low _ c 0 6 (by omega)

/-- The codes of a full group's quad. -/
theorem bytes4_q4 (v : Group) : bytes4 (q4 v) =
    [symCode (v.extractLsb' 18 6), symCode (v.extractLsb' 12 6), symCode (v.extractLsb' 6 6),
      symCode (v.extractLsb' 0 6)] :=
  bytes4_cat _ _ _ _ _ rfl

/-- The codes of a one-octet remainder's quad, over the zero-filled group. -/
theorem bytes4_q1 (a : Octet) : bytes4 (q1 a) =
    [symCode ((a ++ 0x00#8 ++ 0x00#8 : Group).extractLsb' 18 6),
      symCode ((a ++ 0x00#8 ++ 0x00#8 : Group).extractLsb' 12 6), pad, pad] := by
  have h : (a ++ 0x0000#16 : Group) = a ++ 0x00#8 ++ 0x00#8 := by revert a; decide
  rw [← h]
  exact bytes4_cat _ _ _ _ _ rfl

/-- The codes of a two-octet remainder's quad, over the zero-filled group. -/
theorem bytes4_q2 (a b : Octet) : bytes4 (q2 a b) =
    [symCode ((a ++ b ++ 0x00#8 : Group).extractLsb' 18 6), symCode ((a ++ b ++ 0x00#8 : Group).extractLsb' 12 6),
      symCode ((a ++ b ++ 0x00#8 : Group).extractLsb' 6 6), pad] :=
  bytes4_cat _ _ _ _ _ rfl

/-- The four indices of a group value put together give it back. -/
theorem group_of_indices (v : Group) :
    (v.extractLsb' 18 6 ++ v.extractLsb' 12 6 ++ v.extractLsb' 6 6 ++ v.extractLsb' 0 6 : Group) = v :=
  (congrArg (fun x : BitVec 12 => (x ++ v.extractLsb' 6 6 ++ v.extractLsb' 0 6 : Group)) (slices_join v 12 6 6)).trans
    ((congrArg (fun x : BitVec 18 => (x ++ v.extractLsb' 0 6 : Group)) (slices_join v 6 6 12)).trans
      ((slices_join v 0 6 18).trans (by simp)))

/-- The octets of the four indices of three octets. -/
theorem groupOctets_of_octets (a b c : Octet) :
    groupOctets ((a ++ b ++ c : Group).extractLsb' 18 6) ((a ++ b ++ c : Group).extractLsb' 12 6)
      ((a ++ b ++ c : Group).extractLsb' 6 6) ((a ++ b ++ c : Group).extractLsb' 0 6) = [a, b, c] := by
  unfold groupOctets
  have h := group_of_indices (a ++ b ++ c)
  have e₂ : (a ++ b ++ c : Group).extractLsb' 16 8 = a :=
    (slice_of_high _ c 16 8 (by omega)).trans ((slice_of_high a b 8 8 (by omega)).trans (by simp))
  have e₁ : (a ++ b ++ c : Group).extractLsb' 8 8 = b :=
    (slice_of_high _ c 8 8 (by omega)).trans ((slice_of_low a b 0 8 (by omega)).trans (by simp))
  have e₀ : (a ++ b ++ c : Group).extractLsb' 0 8 = c := (slice_of_low _ c 0 8 (by omega)).trans (by simp)
  simp only [h, e₂, e₁, e₀]

theorem refEncode_group (a b c : Octet) (rest : List Octet) :
    refEncode (a :: b :: c :: rest) = bytes4 (q4 (a ++ b ++ c)) ++ refEncode rest := by
  simp [refEncode]

end Sys2Proof.Laws
end

