-- ==== Sys2Proof/Laws/State.lean ====
section
/-! SUPPORT. One lemma per field per update of State, so that no proof unfolds one. -/

namespace Sys2Proof.Laws

open Sys2Proof.Machine

@[simp] theorem resetStep_cnt (s : State) : s.resetStep.cnt = 0#2 := rfl
@[simp] theorem resetStep_hold (s : State) : s.resetStep.hold = 0x0000#16 := rfl
@[simp] theorem resetStep_input (s : State) : s.resetStep.input = s.input := rfl
@[simp] theorem resetStep_output (s : State) : s.resetStep.output = s.output := rfl

@[simp] theorem offer_cnt (w : InWord) (s : State) : (s.offer w).cnt = s.cnt := rfl
@[simp] theorem offer_hold (w : InWord) (s : State) : (s.offer w).hold = s.hold := rfl
@[simp] theorem offer_input (w : InWord) (s : State) : (s.offer w).input = w :: s.input := rfl
@[simp] theorem offer_output (w : InWord) (s : State) : (s.offer w).output = s.output := rfl

@[simp] theorem reset_cnt : State.reset.cnt = 0#2 := rfl
@[simp] theorem reset_hold : State.reset.hold = 0x0000#16 := rfl
@[simp] theorem reset_input : State.reset.input = [] := rfl
@[simp] theorem reset_output : State.reset.output = [] := rfl

@[simp] theorem emptied_cnt (w : OutWord) : (Effect.emptied w).cnt = 0#2 := rfl
@[simp] theorem emptied_hold (w : OutWord) : (Effect.emptied w).hold = 0x0000#16 := rfl
@[simp] theorem emptied_emitted (w : OutWord) : (Effect.emptied w).emitted = some w := rfl

@[simp] theorem emitTo_none (out : List OutWord) : emitTo out none = out := rfl
@[simp] theorem emitTo_some (out : List OutWord) (w : OutWord) : emitTo out (some w) = out ++ [w] := rfl

/-- What `Emit` appends, as a list. -/
theorem emitTo_eq_append (out : List OutWord) (w : Option OutWord) : emitTo out w = out ++ w.toList := by
  cases w <;> simp

@[simp] theorem commit_none (s : State) : s.commit none = .refused .phaseThree := rfl
@[simp] theorem commit_some (s : State) (e : Effect) :
    s.commit (some e) = .next { s with cnt := e.cnt, hold := e.hold, output := emitTo s.output e.emitted } := rfl

/-- All that `commit` can do when it answers a next state. -/
theorem commit_next {s t : State} {o : Option Effect} (h : s.commit o = .next t) :
    ∃ e, o = some e ∧ t = { s with cnt := e.cnt, hold := e.hold, output := emitTo s.output e.emitted } := by
  cases o with
  | none => simp at h
  | some e => exact ⟨e, rfl, by simpa using h.symm⟩

@[simp] theorem nextBeat_of_nil {s : State} (h : s.input = []) : s.nextBeat = none := by simp [State.nextBeat, h]
@[simp] theorem nextBeat_of_cons {s : State} {w : InWord} {ws : List InWord} (h : s.input = w :: ws) :
    s.nextBeat = some (w, { s with input := ws }) := by simp [State.nextBeat, h]
theorem nextBeat_offer (w : InWord) (s : State) : (s.offer w).nextBeat = some (w, s) := rfl

@[simp] theorem phaseOf_zero : phaseOf 0#2 = some .zero := rfl
@[simp] theorem phaseOf_one : phaseOf 1#2 = some .one := rfl
@[simp] theorem phaseOf_two : phaseOf 2#2 = some .two := rfl
@[simp] theorem phaseOf_three : phaseOf 3#2 = none := rfl

/-- The four values of `cnt`. -/
theorem cnt_cases (c : Cnt) : c = 0#2 ∨ c = 1#2 ∨ c = 2#2 ∨ c = 3#2 := by
  revert c; decide

/-- The three phases, where the unspecified value is excluded. -/
theorem phase_cases {c : Cnt} (h : c ≠ 3#2) : c = 0#2 ∨ c = 1#2 ∨ c = 2#2 := by
  revert c; decide

end Sys2Proof.Laws
end

