-- ==== Sys2Proof/Laws/Ops.lean ====
section
/-! SUPPORT. What the operations, a step, a run and a clock edge can do, each said once. -/

namespace Sys2Proof.Laws

open Sys2Proof.Machine

/-- The meaning of every operation lands its effect. -/
theorem exec_eq_commit (i : Instr) (s : State) : exec i s = s.commit (effectOf i s.cnt s.hold) := by
  cases i <;> rfl

/-- The effects, phase by phase (41_stream_ops.md R74). -/
@[simp] theorem nullEffect_zero (h : Hold) : nullEffect 0#2 h = some ⟨0#2, h, none⟩ := rfl
@[simp] theorem nullEffect_one (h : Hold) : nullEffect 1#2 h = some ⟨1#2, h, none⟩ := rfl
@[simp] theorem nullEffect_two (h : Hold) : nullEffect 2#2 h = some ⟨2#2, h, none⟩ := rfl
@[simp] theorem nullEffect_three (h : Hold) : nullEffect 3#2 h = none := rfl
@[simp] theorem dataEffect_zero (d : Octet) (h : Hold) : dataEffect d 0#2 h = some ⟨1#2, d ++ 0x00#8, none⟩ := rfl
@[simp] theorem dataEffect_one (d : Octet) (h : Hold) :
    dataEffect d 1#2 h = some ⟨2#2, firstHeld h ++ d, none⟩ := rfl
@[simp] theorem dataEffect_two (d : Octet) (h : Hold) :
    dataEffect d 2#2 h = some (.emptied (wordQ (q4 (groupOf h d)))) := rfl
@[simp] theorem dataEffect_three (d : Octet) (h : Hold) : dataEffect d 3#2 h = none := rfl
@[simp] theorem endEffect_zero (h : Hold) : endEffect 0#2 h = some (.emptied wordEL) := rfl
@[simp] theorem endEffect_one (h : Hold) : endEffect 1#2 h = some (.emptied (wordQL (q1 (firstHeld h)))) := rfl
@[simp] theorem endEffect_two (h : Hold) :
    endEffect 2#2 h = some (.emptied (wordQL (q2 (firstHeld h) (secondHeld h)))) := rfl
@[simp] theorem endEffect_three (h : Hold) : endEffect 3#2 h = none := rfl
@[simp] theorem dlastEffect_zero (d : Octet) (h : Hold) : dlastEffect d 0#2 h = some (.emptied (wordQL (q1 d))) := rfl
@[simp] theorem dlastEffect_one (d : Octet) (h : Hold) :
    dlastEffect d 1#2 h = some (.emptied (wordQL (q2 (firstHeld h) d))) := rfl
@[simp] theorem dlastEffect_two (d : Octet) (h : Hold) :
    dlastEffect d 2#2 h = some (.emptied (wordQL (q4 (groupOf h d)))) := rfl
@[simp] theorem dlastEffect_three (d : Octet) (h : Hold) : dlastEffect d 3#2 h = none := rfl

/-- All that an operation can do: in a specified phase it has one of these effects. -/
theorem effect_cases {i : Instr} {c : Cnt} {h : Hold} {e : Effect} (he : effectOf i c h = some e) :
    (i = .null ∧ c ≠ 3#2 ∧ e = ⟨c, h, none⟩) ∨
      (∃ d, i = .data d ∧ c = 0#2 ∧ e = ⟨1#2, d ++ 0x00#8, none⟩) ∨
      (∃ d, i = .data d ∧ c = 1#2 ∧ e = ⟨2#2, firstHeld h ++ d, none⟩) ∨
      (∃ d, i = .data d ∧ c = 2#2 ∧ e = .emptied (wordQ (q4 (groupOf h d)))) ∨
      (i = .endFrame ∧ c = 0#2 ∧ e = .emptied wordEL) ∨
      (i = .endFrame ∧ c = 1#2 ∧ e = .emptied (wordQL (q1 (firstHeld h)))) ∨
      (i = .endFrame ∧ c = 2#2 ∧ e = .emptied (wordQL (q2 (firstHeld h) (secondHeld h)))) ∨
      (∃ d, i = .dlast d ∧ c = 0#2 ∧ e = .emptied (wordQL (q1 d))) ∨
      (∃ d, i = .dlast d ∧ c = 1#2 ∧ e = .emptied (wordQL (q2 (firstHeld h) d))) ∨
      ∃ d, i = .dlast d ∧ c = 2#2 ∧ e = .emptied (wordQL (q4 (groupOf h d))) := by
  rcases cnt_cases c with rfl | rfl | rfl | rfl <;> cases i <;> simp_all [effectOf, eq_comm]

/-- Where an operation has an effect. -/
theorem effect_exists (i : Instr) {c : Cnt} (h : Hold) (hc : c ≠ 3#2) : ∃ e, effectOf i c h = some e := by
  rcases phase_cases hc with rfl | rfl | rfl <;> cases i <;> exact ⟨_, rfl⟩

/-- In the unspecified phase no operation has an effect. -/
@[simp] theorem effect_three (i : Instr) (h : Hold) : effectOf i 3#2 h = none := by cases i <;> rfl

/-- No operation reaches the unspecified phase. -/
theorem effect_cnt {i : Instr} {c : Cnt} {h : Hold} {e : Effect} (he : effectOf i c h = some e) : e.cnt ≠ 3#2 := by
  rcases effect_cases he with ⟨_, h, rfl⟩ | ⟨_, _, _, rfl⟩ | ⟨_, _, _, rfl⟩ | ⟨_, _, _, rfl⟩ | ⟨_, _, rfl⟩ |
    ⟨_, _, rfl⟩ | ⟨_, _, rfl⟩ | ⟨_, _, _, rfl⟩ | ⟨_, _, _, rfl⟩ | ⟨_, _, _, rfl⟩ <;> simp_all

/-- An operation that answers a next state has an effect, and that state is the landed effect. -/
theorem exec_next {i : Instr} {s t : State} (h : exec i s = .next t) :
    ∃ e, effectOf i s.cnt s.hold = some e ∧
      t = { s with cnt := e.cnt, hold := e.hold, output := emitTo s.output e.emitted } :=
  commit_next (exec_eq_commit i s ▸ h)

/-- An operation completes in a specified phase. -/
theorem exec_of_effect {i : Instr} {s : State} {e : Effect} (h : effectOf i s.cnt s.hold = some e) :
    exec i s = .next { s with cnt := e.cnt, hold := e.hold, output := emitTo s.output e.emitted } := by
  rw [exec_eq_commit, h]; rfl

/-- All that a step can do. -/
theorem step_cases {s t : State} (h : step s = .next t) :
    (s.input = [] ∧ t = s) ∨
      ∃ w ws, s.input = w :: ws ∧ accept w { s with input := ws } = .next t := by
  cases hs : s.input with
  | nil => rw [step, nextBeat_of_nil hs] at h; exact .inl ⟨rfl, by simpa using h.symm⟩
  | cons w ws => rw [step, nextBeat_of_cons hs] at h; exact .inr ⟨w, ws, rfl, h⟩

@[simp] theorem andThen_next {σ τ : Type} (s : σ) (f : σ → Host.Outcome τ Fault Refusal) :
    andThen (.next s) f = f s := rfl
@[simp] theorem andThen_refused {σ τ : Type} (r : Refusal) (f : σ → Host.Outcome τ Fault Refusal) :
    andThen (.refused r) f = .refused r := rfl

/-- All that a composition can do when it answers a next state. -/
theorem andThen_eq_next {σ τ : Type} {o : Host.Outcome σ Fault Refusal} {f : σ → Host.Outcome τ Fault Refusal}
    {t : τ} (h : andThen o f = .next t) : ∃ s, o = .next s ∧ f s = .next t := by
  cases o with
  | next s => exact ⟨s, rfl, h⟩
  | fault r => cases r
  | refused r => simp at h

@[simp] theorem runWords_nil (s : State) : runWords [] s = .next s := rfl
@[simp] theorem runWords_cons (w : InWord) (ws : List InWord) (s : State) :
    runWords (w :: ws) s = andThen (accept w s) (runWords ws) := rfl

theorem andThen_assoc {ρ σ τ : Type} (o : Host.Outcome ρ Fault Refusal) (f : ρ → Host.Outcome σ Fault Refusal)
    (g : σ → Host.Outcome τ Fault Refusal) :
    andThen (andThen o f) g = andThen o (fun s => andThen (f s) g) := by
  cases o <;> rfl

/-- A run over two lists is one run after the other. -/
theorem runWords_append (ws ws' : List InWord) (s : State) :
    runWords (ws ++ ws') s = andThen (runWords ws s) (runWords ws') := by
  induction ws generalizing s with
  | nil => rfl
  | cons w ws ih => simp only [List.cons_append, runWords_cons, andThen_assoc, ← ih]

/-- All that a clock edge can do. -/
theorem cycle_cases {p : InPins} {s t : State} (h : cycle p s = .next t) :
    (p.rst = true ∧ t = s.resetStep) ∨ (p.rst = false ∧ p.accepted = true ∧ accept p.word s = .next t) ∨
      (p.rst = false ∧ p.accepted = false ∧ t = s) := by
  unfold cycle at h
  split at h
  · next hr => exact .inl ⟨hr, by simpa using h.symm⟩
  · next hr =>
    split at h
    · next ha => exact .inr (.inl ⟨by simpa using hr, ha, h⟩)
    · next ha => exact .inr (.inr ⟨by simpa using hr, by simpa using ha, by simpa using h.symm⟩)

@[simp] theorem runCycles_nil (s : State) : runCycles [] s = .next s := rfl
@[simp] theorem runCycles_cons (p : InPins) (ps : List InPins) (s : State) :
    runCycles (p :: ps) s = andThen (cycle p s) (runCycles ps) := rfl

@[simp] theorem chip_pins_unreset (p : InPins) (c : Cnt) (h : Hold) :
    Chip.pins p (.unreset c h) = .refused .notReset := rfl
@[simp] theorem chip_pins_live (p : InPins) (s : State) : Chip.pins p (.live s) = outPins p s := rfl
@[simp] theorem chip_edge_live (p : InPins) (s : State) :
    Chip.edge p (.live s) = andThen (cycle p s) fun t => .next (.live t) := rfl
@[simp] theorem chip_edges_nil (chip : Chip) : Chip.edges [] chip = .next chip := rfl
@[simp] theorem chip_edges_cons (p : InPins) (ps : List InPins) (chip : Chip) :
    Chip.edges (p :: ps) chip = andThen (chip.edge p) (Chip.edges ps) := rfl

/-- A clock edge before the first reset step, by the pins. -/
theorem chip_edge_first_reset {p : InPins} (hr : p.rst = true) (c : Cnt) (h : Hold) :
    Chip.edge p (.unreset c h) = .next (.live State.reset) := by simp [Chip.edge, hr]
theorem chip_edge_waiting {p : InPins} (hr : p.rst = false) (hv : p.inValid = false) (c : Cnt) (h : Hold) :
    Chip.edge p (.unreset c h) = .next (.unreset c h) := by simp [Chip.edge, hr, hv]
theorem chip_edge_offered {p : InPins} (hr : p.rst = false) (hv : p.inValid = true) (c : Cnt) (h : Hold) :
    Chip.edge p (.unreset c h) = .refused .notReset := by simp [Chip.edge, hr, hv]

/-- Once reset, the block from power-up on does what `runCycles` does. -/
theorem chip_edges_live (ps : List InPins) (s : State) :
    Chip.edges ps (.live s) = andThen (runCycles ps s) fun t => .next (.live t) := by
  induction ps generalizing s with
  | nil => rfl
  | cons p ps ih => simp only [chip_edges_cons, chip_edge_live, runCycles_cons, andThen_assoc, andThen_next, ih]

end Sys2Proof.Laws
end

