-- ==== Sys2Proof/Laws/PerInstr.lean ====
section
/-! SUPPORT. One lemma per constructor of Instr about its encoding (30_encoding.md R40: mask `0x300`, the match value of
its row of the table, the octet in bits 7:0). -/

namespace Sys2Proof.Laws.RowBits

open Sys2Proof

/-- The match value of an operation's row, under the mask `0x300` (30_encoding.md R40). -/
def matchOf : Instr → InWord
  | .null => 0x000#10
  | .data _ => 0x100#10
  | .endFrame => 0x200#10
  | .dlast _ => 0x300#10

/-- The word of the operation has its row's bits. -/
def Statement (i : Instr) : Prop := encode i &&& 0x300#10 = matchOf i

theorem null : Statement .null := by unfold Statement; decide

theorem data (d : Octet) : Statement (.data d) := by unfold Statement; revert d; decide

theorem endFrame : Statement .endFrame := by unfold Statement; decide

theorem dlast (d : Octet) : Statement (.dlast d) := by unfold Statement; revert d; decide

end Sys2Proof.Laws.RowBits
end

