-- ==== Sys2Proof/Laws/Run.lean ====
section
/-! SUPPORT. Accepting a word and running a list, each said once: when they complete, and that the registers' next values
and the words emitted depend on the registers and the words alone. -/

namespace Sys2Proof.Laws

open Sys2Proof.Machine

@[simp] theorem firstHeld_cat (a b : Octet) : firstHeld (a ++ b) = a :=
  (slice_of_high a b 8 8 (by omega)).trans (by simp)

@[simp] theorem secondHeld_cat (a b : Octet) : secondHeld (a ++ b) = b :=
  (slice_of_low a b 0 8 (by omega)).trans (by simp)

@[simp] theorem groupOf_cat (a b d : Octet) : groupOf (a ++ b) d = a ++ b ++ d := by
  unfold groupOf
  rw [firstHeld_cat, secondHeld_cat]

theorem emptyRegs_specified {s : State} (h : EmptyRegs s) : s.cnt ≠ 3#2 := by
  rw [h.1]; decide

/-- A word is accepted in every specified phase, and leaves one. -/
theorem accept_completes (w : InWord) {s : State} (h : s.cnt ≠ 3#2) : ∃ t, accept w s = .next t ∧ t.cnt ≠ 3#2 := by
  obtain ⟨e, he⟩ := effect_exists (decode w) s.hold h
  exact ⟨_, exec_of_effect he, effect_cnt he⟩

/-- A word is accepted in no other. -/
theorem accept_specified {w : InWord} {s t : State} (h : accept w s = .next t) : s.cnt ≠ 3#2 := by
  intro hc
  obtain ⟨e, he, -⟩ := exec_next h
  simp [hc] at he

/-- A run completes from every specified phase, and leaves one. -/
theorem runWords_completes (ws : List InWord) {s : State} (h : s.cnt ≠ 3#2) :
    ∃ t, runWords ws s = .next t ∧ t.cnt ≠ 3#2 := by
  induction ws generalizing s with
  | nil => exact ⟨s, rfl, h⟩
  | cons w ws ih =>
    obtain ⟨t, ht, hc⟩ := accept_completes w h
    obtain ⟨u, hu, hc'⟩ := ih hc
    exact ⟨u, by simp [ht, hu], hc'⟩

/-- Accepting a word in another state with the same registers. -/
theorem accept_same_registers {w : InWord} {s s' t : State} (hc : s.cnt = s'.cnt) (hh : s.hold = s'.hold)
    (h : accept w s = .next t) :
    ∃ outs, t.output = s.output ++ outs ∧ t.input = s.input ∧
      accept w s' = .next { cnt := t.cnt, hold := t.hold, input := s'.input, output := s'.output ++ outs } := by
  obtain ⟨e, he, rfl⟩ := exec_next h
  exact ⟨e.emitted.toList, emitTo_eq_append _ _, rfl,
    by rw [← emitTo_eq_append]; exact exec_of_effect (by rw [← hc, ← hh]; exact he)⟩

/-- Running a list from another state with the same registers. -/
theorem runWords_same_registers (ws : List InWord) {s s' t : State} (hc : s.cnt = s'.cnt) (hh : s.hold = s'.hold)
    (h : runWords ws s = .next t) :
    ∃ outs, t.output = s.output ++ outs ∧ t.input = s.input ∧
      runWords ws s' = .next { cnt := t.cnt, hold := t.hold, input := s'.input, output := s'.output ++ outs } := by
  induction ws generalizing s s' t with
  | nil => simp at h; subst h; exact ⟨[], by simp, rfl, by simp [hc, hh]⟩
  | cons w ws ih =>
    obtain ⟨u, hu, hr⟩ := andThen_eq_next h
    obtain ⟨o₁, h₁, h₂, h₃⟩ := accept_same_registers hc hh hu
    obtain ⟨o₂, h₄, h₅, h₆⟩ := ih (s := u)
      (s' := { cnt := u.cnt, hold := u.hold, input := s'.input, output := s'.output ++ o₁ }) rfl rfl hr
    exact ⟨o₁ ++ o₂, by simp [h₄, h₁], by rw [h₅, h₂], by simp [h₃, h₆]⟩

/-- The host's run, one step at a time. -/
theorem core_run_succ (n : Nat) {s t : State} (h : step s = .next t) :
    Sys2Proof.core.run (n + 1) s = Sys2Proof.core.run n t := by
  simp only [Host.Core.run]
  rw [show Sys2Proof.core.step s = Host.Outcome.next t from h]

/-- Where an operation emits (41_stream_ops.md R74). -/
theorem effect_emits {w : InWord} {c : Cnt} {h : Hold} {e : Effect} (he : effectOf (decode w) c h = some e) :
    e.emitted.isSome = emits c w := by
  obtain ⟨l, k, d, rfl⟩ := exists_inWord w
  rcases cnt_cases c with rfl | rfl | rfl | rfl <;> cases l <;> cases k <;> simp [effectOf] at he <;>
    subst he <;> simp [emits]

end Sys2Proof.Laws
end

