-- ==== Sys2Proof/Tests/Slice0.lean ====
section
/-! SUPPORT. The model's own tests, their expected results from spec/ (named at each), and one witness for the hypotheses
of every statement of Certificates/Slice0/Obligations.lean. -/

namespace Sys2Proof.Tests

open Sys2Proof.Machine

/-- A small state: the two registers, one offered word, no output yet. -/
def offered (c : Cnt) (h : Hold) (w : InWord) : State := { cnt := c, hold := h, input := [w], output := [] }

/-- A small state with empty streams. -/
def held (c : Cnt) (h : Hold) : State := { cnt := c, hold := h, input := [], output := [] }

/-- One cycle's pins: `rst`, `in_valid`, the word, `out_ready`. -/
def pins (rst valid : Bool) (w : InWord) (ready : Bool) : InPins :=
  { rst := rst, inValid := valid, inLast := w.last, inKeep := w.keep, inData := w.data, outReady := ready }

/-- The pins an outcome offers. -/
def pinsOf : Host.Outcome OutPins Fault Refusal → Option OutPins
  | .next o => some o
  | .fault _ => none
  | .refused _ => none

/-- The result of the reference decoder, or nothing. -/
def accepted : Except DecodeError (List Octet) → Option (List Octet)
  | .ok bs => some bs
  | .error _ => none

/-! Well-formedness: the one ill-formed term (30_encoding.md R50) and the number that is no word (R39) -/

theorem test_wf_refuses_framel_of_nothing : (PseudoOp.framel []).wellFormed = false := by decide
theorem test_wf_accepts_framel_of_one : (PseudoOp.framel [0x00#8]).wellFormed = true := by decide
theorem test_no_word_is_wider_than_ten_bits : decodeTableWord 16 0x400 = none ∧ decodeTableWord 16 0x3FF = some (.dlast 0xFF#8) := by
  decide

/-! Decoding: words written bit by bit from 30_encoding.md R39, R40 and R51 -/

theorem test_decode_null : decode 0b0000000000#10 = .null ∧ decode 0b0011111111#10 = .null := by decide
theorem test_decode_data : decode 0b0101001101#10 = .data 0x4D#8 ∧ decode 0b0100000000#10 = .data 0x00#8 := by decide
theorem test_decode_end : decode 0b1000000000#10 = .endFrame ∧ decode 0b1010100101#10 = .endFrame := by decide
theorem test_decode_dlast : decode 0b1101101110#10 = .dlast 0x6E#8 ∧ decode 0b1111111111#10 = .dlast 0xFF#8 := by decide
theorem test_encode_words : encode .null = 0x000#10 ∧ encode (.data 0x4D#8) = 0x14D#10 ∧ encode .endFrame = 0x200#10 ∧
    encode (.dlast 0x6E#8) = 0x36E#10 := by decide

/-- The widths of 00_scope.md R7. -/
theorem test_widths : Octet = BitVec Config.octetW ∧ Sym = BitVec Config.symW ∧ Index = BitVec Config.idxW ∧
    InWord = BitVec Config.inW ∧ OutWord = BitVec Config.outW ∧ Cnt = BitVec Config.cntW ∧ Hold = BitVec Config.holdW ∧
      Group = BitVec (Config.groupN * Config.octetW) ∧ Quad = BitVec (Config.quadN * Config.symW) ∧
        alphabet.length = Config.alphaN ∧ alphabetCodes.length = Config.alphaN :=
  ⟨rfl, rfl, rfl, rfl, rfl, rfl, rfl, rfl, rfl, rfl, rfl⟩

/-! One step of each operation (95_test_vectors.md section 5) -/

theorem test_null_in_a_group : finalState (step (offered 2#2 0x3C5A#16 0x0A5#10)) = some (held 2#2 0x3C5A#16) := by decide
theorem test_data_second_octet : finalState (step (offered 1#2 0x3C00#16 0x1A5#10)) = some (held 2#2 0x3CA5#16) := by decide
theorem test_data_completes_group : finalState (step (offered 2#2 0x3C5A#16 0x1A5#10)) =
    some { held 0#2 0x0000#16 with output := [0x15046716C#34] } := by decide
theorem test_end_one_octet : finalState (step (offered 1#2 0x3C00#16 0x200#10)) =
    some { held 0#2 0x0000#16 with output := [0x350413D3D#34] } := by decide
theorem test_end_two_octets : finalState (step (offered 2#2 0x3C5A#16 0x2A5#10)) =
    some { held 0#2 0x0000#16 with output := [0x350466F3D#34] } := by decide
theorem test_dlast_first_octet : finalState (step (offered 0#2 0x0000#16 0x3A5#10)) =
    some { held 0#2 0x0000#16 with output := [0x370513D3D#34] } := by decide
theorem test_dlast_second_octet : finalState (step (offered 1#2 0x3C00#16 0x3A5#10)) =
    some { held 0#2 0x0000#16 with output := [0x3504B553D#34] } := by decide

/-- The first step after reset with a placed word (70_reset_and_hazards.md R114: a run starts in `(0, 0)`). -/
theorem test_placed_word_runs_first : finalState (step (State.reset.withFetchWord 16 0x14D)) = some (held 1#2 0x4D00#16) := by
  decide

/-! The codec (95_test_vectors.md sections 1 to 4; S1 to S5 are the source's own) -/

theorem test_source_vectors : refEncode [] = [] ∧ refEncode [0x4D#8, 0x61#8, 0x6E#8] = [0x54#8, 0x57#8, 0x46#8, 0x75#8] ∧
    refEncode [0xFF#8] = [0x2F#8, 0x77#8, 0x3D#8, 0x3D#8] ∧ refEncode [0xFF#8, 0xFF#8] = [0x2F#8, 0x2F#8, 0x38#8, 0x3D#8] ∧
      refEncode [0x00#8, 0x00#8, 0x00#8] = [0x41#8, 0x41#8, 0x41#8, 0x41#8] := by decide
theorem test_q4_order : q4 0x0420C4#24 = 0x42434445#32 ∧ q4 0x03F000#24 = 0x412F4141#32 ∧ q4 0xD35DB7#24 = 0x30313233#32 ∧
    q4 0xFBEFBE#24 = 0x2B2B2B2B#32 := by decide
theorem test_q1_bits : q1 0x01#8 = 0x41513D3D#32 ∧ q1 0x04#8 = 0x42413D3D#32 ∧ q1 0xFC#8 = 0x2F413D3D#32 := by decide
theorem test_q2_bits : q2 0x00#8 0x01#8 = 0x4141453D#32 ∧ q2 0x00#8 0x10#8 = 0x4142413D#32 ∧ q2 0xFB#8 0xFF#8 = 0x2B2F383D#32 := by
  decide
theorem test_symbol_range_ends : symCode 25#6 = 0x5A#8 ∧ symCode 26#6 = 0x61#8 ∧ symCode 51#6 = 0x7A#8 ∧ symCode 52#6 = 0x30#8 ∧
    symCode 61#6 = 0x39#8 ∧ symCode 62#6 = 0x2B#8 ∧ symCode 63#6 = 0x2F#8 := by decide
/-- 95_test_vectors.md section 4: `14 FB 9C 03 D9` is `FPucA9k=`. -/
theorem test_encode_five_octets : refEncode [0x14#8, 0xFB#8, 0x9C#8, 0x03#8, 0xD9#8] =
    [0x46#8, 0x50#8, 0x75#8, 0x63#8, 0x41#8, 0x39#8, 0x6B#8, 0x3D#8] := by decide

/-! The reference decoder (95_test_vectors.md section 8): `TWE=` against `/w=A`, `=AAA`, `TW-u`, `/x==`, `//9=`, `TWF` -/

theorem test_decode_accepts : accepted (refDecode [0x54#8, 0x57#8, 0x45#8, 0x3D#8]) = some [0x4D#8, 0x61#8] := by decide
theorem test_decode_rejects : accepted (refDecode [0x2F#8, 0x77#8, 0x3D#8, 0x41#8]) = none ∧
    accepted (refDecode [0x3D#8, 0x41#8, 0x41#8, 0x41#8]) = none ∧ accepted (refDecode [0x54#8, 0x57#8, 0x2D#8, 0x75#8]) = none ∧
      accepted (refDecode [0x2F#8, 0x78#8, 0x3D#8, 0x3D#8]) = none ∧
        accepted (refDecode [0x2F#8, 0x2F#8, 0x39#8, 0x3D#8]) = none ∧ accepted (refDecode [0x54#8, 0x57#8, 0x46#8]) = none := by
  decide

/-! Reset and pins (95_test_vectors.md section 6, rows 1, 3, 4, 5, 6) -/

theorem test_reset_wins : finalState (cycle (pins true true 0x16E#10 true) (held 2#2 0x4D61#16)) = some (held 0#2 0x0000#16) ∧
    pinsOf (outPins (pins true true 0x16E#10 true) (held 2#2 0x4D61#16)) = some ⟨false, false, none⟩ := by decide
theorem test_reset_from_power_up : Chip.edge (pins true true 0x16E#10 true) .powerUp = .next (.live State.reset) ∧
    (held 3#2 0xBEEF#16).resetStep = held 0#2 0x0000#16 := ⟨rfl, rfl⟩
/-- 93_implementation_defined.md U1: `refuse`. -/
theorem test_unreset_block_is_refused : Chip.pins (pins false false 0x000#10 true) .powerUp = .refused .notReset ∧
    Chip.edge (pins false true 0x16E#10 false) .powerUp = .refused .notReset := ⟨rfl, rfl⟩
theorem test_stalled_word_is_offered : finalState (cycle (pins false true 0x16E#10 false) (held 2#2 0x4D61#16)) = some (held 2#2 0x4D61#16) ∧
    pinsOf (outPins (pins false true 0x16E#10 false) (held 2#2 0x4D61#16)) = some ⟨false, true, some 0x154574675#34⟩ := by decide
theorem test_ready_word_crosses : finalState (cycle (pins false true 0x16E#10 true) (held 2#2 0x4D61#16)) =
    some { held 0#2 0x0000#16 with output := [0x154574675#34] } := by decide
theorem test_nothing_offered : finalState (cycle (pins false false 0x000#10 true) (held 1#2 0x4D00#16)) = some (held 1#2 0x4D00#16) := by
  decide

/-- 30_encoding.md R43: shapes the block can emit (`Q "TWFu"`, `QL "//8="`, `EL`) and words that it cannot (neither bit
set; a pad inside a frame; the pad third only). -/
theorem test_word_shapes : wordShape 0x154574675#34 = true ∧ wordShape 0x32F2F383D#34 = true ∧ wordShape 0x200000000#34 = true ∧
    wordShape 0x054574675#34 = false ∧ wordShape 0x12F2F383D#34 = false ∧ wordShape 0x32F773D41#34 = false := by decide

/-! Frames (30_encoding.md R50, 95_test_vectors.md program P2) and the notation (30_encoding.md R49) -/

theorem test_frames_of_program_two : inputFrames [0x000#10, 0x3FF#10, 0x0A5#10, 0x200#10, 0x1FF#10, 0x000#10, 0x1FF#10, 0x2A5#10] =
    ([[0xFF#8], [], [0xFF#8, 0xFF#8]], []) := by decide
theorem test_texts_of_program_two : (outputFrames [0x32F773D3D#34, 0x200000000#34, 0x32F2F383D#34]).1 =
    [[0x2F#8, 0x77#8, 0x3D#8, 0x3D#8], [], [0x2F#8, 0x2F#8, 0x38#8, 0x3D#8]] := by decide
theorem test_assemble_char_operand :
    assembleLine ['D', 'A', 'T', 'A', ' ', '\'', 'M', '\'', ' ', ';', ' ', 'x'] = some [.data 0x4D#8] := by decide
/-- The model's choice (entry 13), and a `;` without quotes. -/
theorem test_quoted_semicolon_is_an_operand : assembleLine ['D', 'A', 'T', 'A', ' ', '\'', ';', '\''] = some [.data 0x3B#8] ∧
    assembleLine ['N', 'U', 'L', 'L', ';', '\''] = some [.null] := by decide
theorem test_assemble_framel :
    assembleLine ['F', 'R', 'A', 'M', 'E', 'L', ' ', '0', 'x', '4', 'D', ',', ' ', '9', '7'] = some [.data 0x4D#8, .dlast 0x61#8] := by
  decide
theorem test_print_output : printOut 0x32F2F383D#34 = some ['Q', 'L', ' ', '"', '/', '/', '8', '=', '"'] := by decide

/-! Witnesses: for every statement with hypotheses, a state and operands that meet them, at the ends of each range -/

theorem witness_NullChangesNothingInAnyPhase : (0x000#10 : InWord).toNat ≤ 0x0FF ∧ (0x0FF#10 : InWord).toNat ≤ 0x0FF ∧
    (held 0#2 0x0000#16).cnt ≠ 3#2 ∧ (held 2#2 0x3C5A#16).cnt ≠ 3#2 := by decide
theorem witness_DataStoresTheOctetOrEmitsTheGroup :
    (0x100 ≤ (0x100#10 : InWord).toNat ∧ (0x100#10 : InWord).toNat ≤ 0x1FF) ∧
      (0x100 ≤ (0x1FF#10 : InWord).toNat ∧ (0x1FF#10 : InWord).toNat ≤ 0x1FF) ∧
        (held 0#2 0x0000#16).cnt = 0#2 ∧ (held 1#2 0x3C00#16).cnt = 1#2 ∧ (held 2#2 0x3C5A#16).cnt = 2#2 := by decide
theorem witness_EndEmitsTheRemainderAndEmpties :
    (0x200 ≤ (0x200#10 : InWord).toNat ∧ (0x200#10 : InWord).toNat ≤ 0x2FF) ∧
      (0x200 ≤ (0x2FF#10 : InWord).toNat ∧ (0x2FF#10 : InWord).toNat ≤ 0x2FF) ∧
        (held 0#2 0x0000#16).cnt = 0#2 ∧ (held 1#2 0x3C00#16).cnt = 1#2 ∧ (held 2#2 0x3C5A#16).cnt = 2#2 := by decide
theorem witness_DlastEncodesTheLastOctetAndEmpties :
    0x300 ≤ (0x300#10 : InWord).toNat ∧ 0x300 ≤ (0x3FF#10 : InWord).toNat ∧
      (held 0#2 0x0000#16).cnt = 0#2 ∧ (held 1#2 0x3C00#16).cnt = 1#2 ∧ (held 2#2 0x3C5A#16).cnt = 2#2 := by decide
/-- The last clause of `DlastEncodesTheLastOctetAndEmpties`: a last quad without a pad. -/
theorem witness_DlastEncodesTheLastOctetAndEmpties_no_pad :
    exec (.dlast 0x6E#8) (held 2#2 0x4D61#16) = .next { held 0#2 0x0000#16 with output := [outWord true true 0x54574675#32] } ∧
      pad ∉ bytes4 0x54574675#32 := ⟨by rfl, by decide⟩
theorem witness_DlastIsDataThenEndMerged : (held 1#2 0x3C00#16).cnt ≠ 3#2 ∧ (held 1#2 0x3C00#16).cnt ≠ 2#2 ∧
    (held 2#2 0x3C5A#16).cnt ≠ 3#2 ∧ (held 2#2 0x3C5A#16).cnt = 2#2 := by decide
theorem witness_AnOperationAppendsAtMostOneWord : (held 1#2 0x3C00#16).cnt ≠ 3#2 ∧
    (0x000#10 : InWord).getLsbD 9 = false ∧ (0x000#10 : InWord).getLsbD 8 = false := by decide
theorem witness_OnlyPhaseThreeIsRefused : (held 3#2 0x0000#16).cnt = 3#2 ∧ (held 2#2 0xFFFF#16).cnt ≠ 3#2 := by decide
theorem witness_StepRunsTheHeadWord : (offered 1#2 0x3C00#16 0x1A5#10).input = 0x1A5#10 :: [] := by decide
theorem witness_StepHoldsTheStateWhenNothingIsOffered : (held 1#2 0x3C00#16).input = [] := by decide
theorem witness_APlacedWordRunsNext : decodeTableWord 16 0x000 = some .null ∧ decodeTableWord 16 0x3FF = some (.dlast 0xFF#8) := by decide
theorem witness_StepNeverLooksAhead :
    (offered 1#2 0x3C00#16 0x1A5#10).input = 0x1A5#10 :: [] ∧
      ({ cnt := 1#2, hold := 0x3C00#16, input := [0x1A5#10, 0x200#10], output := [wordEL] } : State).input = 0x1A5#10 :: [0x200#10] ∧
        (step (offered 1#2 0x3C00#16 0x1A5#10)) = .next (held 2#2 0x3CA5#16) := ⟨rfl, rfl, rfl⟩
theorem witness_LastAndKeepSelectTheOperation : (0x0FF#10 : InWord).toNat / 256 = 0 ∧ (0x100#10 : InWord).toNat / 256 = 1 ∧
    (0x2FF#10 : InWord).toNat / 256 = 2 ∧ (0x300#10 : InWord).toNat / 256 = 3 := by decide
theorem witness_DecodeAndEncodeAgree : (Instr.dlast 0xFF#8).wellFormed = true := by decide
theorem witness_OutputWordFieldsLieAsTheFormatSays : exec .endFrame (held 0#2 0x0000#16) =
    .next { held 0#2 0x0000#16 with output := [wordEL] } ∧ wordEL.getLsbD 32 = false := ⟨rfl, by decide⟩
theorem witness_SymbolCodesFollowTheAlphabet : (25#6 : Index).toNat ≤ 25 ∧ (26 ≤ (26#6 : Index).toNat ∧ (51#6 : Index).toNat ≤ 51) ∧
    (52 ≤ (52#6 : Index).toNat ∧ (61#6 : Index).toNat ≤ 61) ∧ (62#6 : Index).toNat = 62 ∧ (63#6 : Index).toNat = 63 ∧
      symCode 63#6 = symCode 63#6 := by decide
theorem witness_FrameAndFramelExpandToTheSameText : EmptyRegs State.reset ∧
    (PseudoOp.frame [0xFF#8]).expand = some [.data 0xFF#8, .endFrame] ∧ (PseudoOp.framel [0xFF#8]).expand = some [.dlast 0xFF#8] := by
  decide
theorem witness_GroupsAreTakenFromTheFront : 3 * 1 + 2 < [0x00#8, 0x01#8, 0x02#8, 0x03#8, 0x04#8, 0x05#8].length := by decide
theorem witness_TheTextHasFourSymbolsPerStartedGroup : ([] : List Octet).length % 3 = 0 ∧ [0x00#8].length % 3 ≠ 0 ∧
    [0x00#8, 0x01#8, 0x02#8].length % 3 = 0 := by decide
theorem witness_PadsStandAtTheEndOnly : ([] : List Octet).length % 3 = 0 ∧ [0x00#8].length % 3 = 1 ∧ [0x00#8, 0x01#8].length % 3 = 2 := by
  decide
theorem witness_TheTextHoldsAlphabetAndPadOnly : 0x3D#8 ∈ refEncode [0xFF#8] ∧ 0x77#8 ∈ refEncode [0xFF#8] := by decide
theorem witness_EncodeComposesAtGroupBoundaries : [0x00#8, 0x01#8, 0x02#8].length % 3 = 0 ∧ [0xFF#8].length % 3 ≠ 0 ∧
    [0x00#8, 0x01#8].length % 3 ≠ 0 ∧ [0xFF#8] ≠ [] := by decide
theorem witness_EncodeIsInjective : refEncode [0xFF#8] = refEncode [0xFF#8] := rfl
theorem witness_TheInverseSymbolMapInvertsS : symIndex 0x2F#8 = some 63#6 ∧ symCode 63#6 = 0x2F#8 ∧
    0x3D#8 ∈ [0x3D#8, 0x2D#8, 0x5F#8, 0x20#8, 0x0D#8, 0x0A#8] ∧ 0x80#8 ≤ (0x80#8 : Sym) := by decide
theorem witness_DecodeRejectsWrongLengthAndForeignCodes : [0x54#8, 0x57#8, 0x46#8].length % 4 ≠ 0 ∧
    0x2D#8 ∈ [0x54#8, 0x57#8, 0x2D#8, 0x75#8] ∧ (∀ i : Index, symCode i ≠ 0x2D#8) ∧ (0x2D#8 : Sym) ≠ 0x3D#8 := by decide
/-- For `EveryOutputFrameIsTheEncodingOfItsInputFrame` and `DecodingTheBlocksTextGivesTheFrameBack`, whose one hypothesis
is empty registers. -/
theorem witness_runs_from_empty_registers : EmptyRegs State.reset ∧ EmptyRegs (held 0#2 0x0000#16) := by decide
theorem witness_FramesAreTheStreamsCutAtTheirEnds : (∀ x ∈ [0x1FF#10], x.getLsbD 9 = false) ∧ (0x200#10 : InWord).getLsbD 9 = true ∧
    (∀ x ∈ [0x154574675#34], x.getLsbD 33 = false) ∧ OutWord.last 0x200000000#34 = true :=
  ⟨by simp, by decide, by simp, by decide⟩
theorem witness_OneFrameGivesExactlyItsEncoding : EmptyRegs State.reset ∧ isFrameOf [0x1FF#10, 0x0A5#10, 0x200#10] [0xFF#8] ∧
    isFrameOf [0x200#10] [] :=
  ⟨by decide, ⟨by decide, [0x1FF#10, 0x0A5#10], 0x200#10, rfl, by decide, by simp [InWord.last]⟩,
    ⟨by decide, [], 0x200#10, rfl, by decide, by simp⟩⟩
theorem witness_WordsPerFrameFollowItsLength : EmptyRegs State.reset ∧ (PseudoOp.frame []).expand = some [.endFrame] ∧
    (PseudoOp.framel [0x6E#8]).expand = some [.dlast 0x6E#8] := by decide
theorem witness_NullsAndIgnoredDataAreInvisible : (held 2#2 0x3C5A#16).cnt ≠ 3#2 := by decide
theorem witness_TheRunDependsOnlyOnTheFrames : EmptyRegs State.reset ∧
    inputForms [0x0A5#10, 0x1FF#10, 0x2A5#10] = inputForms [0x1FF#10, 0x200#10] := by decide
theorem witness_NothingIsCarriedAcrossAFrameEnd : InWord.last 0x3FF#10 = true ∧
    runWords ([0x1FF#10] ++ [0x3FF#10]) State.reset = .next { held 0#2 0x0000#16 with output := [0x32F2F383D#34] } :=
  ⟨by decide, rfl⟩
theorem witness_TheRegistersHoldTheOpenGroup : EmptyRegs State.reset ∧
    runWords [0x14D#10, 0x161#10] State.reset = .next (held 2#2 0x4D61#16) := ⟨by decide, rfl⟩
theorem witness_RunsAreSequentialAndOutputOnlyGrows : runWords [0x14D#10] State.reset = .next (held 1#2 0x4D00#16) ∧
    runWords ([0x14D#10] ++ [0x161#10]) State.reset = .next (held 2#2 0x4D61#16) := ⟨rfl, rfl⟩
theorem witness_TheMachineRunsItsStreamAsTheFold : (offered 1#2 0x3C00#16 0x1A5#10).cnt ≠ 3#2 := by decide
theorem witness_ARunThatEndsOnAFrameBoundaryEndsEmpty : EmptyRegs State.reset ∧ onFrameBoundary [] = true ∧
    onFrameBoundary [0x0A5#10] = true ∧ onFrameBoundary [0x1FF#10, 0x200#10, 0x000#10] = true := by decide
theorem witness_ARunEndsEmptyIffOnAFrameBoundary : runWords [0x3FF#10] State.reset =
    .next { held 0#2 0x0000#16 with output := [0x32F773D3D#34] } := rfl
theorem witness_StepKeepsTheInvariant : GoodState (offered 2#2 0x3C5A#16 0x1A5#10) ∧
    step (offered 2#2 0x3C5A#16 0x1A5#10) = .next { held 0#2 0x0000#16 with output := [0x15046716C#34] } :=
  ⟨⟨by decide, by decide⟩, rfl⟩
theorem witness_AClockEdgeKeepsTheInvariant : GoodState (held 1#2 0x3C00#16) ∧
    cycle (pins false true 0x1A5#10 true) (held 1#2 0x3C00#16) = .next (held 2#2 0x3CA5#16) := ⟨⟨by decide, by decide⟩, rfl⟩
theorem witness_NoRunFromAGoodStateStops : GoodState State.reset := by decide
theorem witness_AResetEdgeEmptiesTheRegisters : (pins true true 0x16E#10 true).rst = true ∧ (pins true false 0x000#10 false).rst = true ∧
    cycle (pins true true 0x16E#10 true) (held 3#2 0xBEEF#16) = .next (held 0#2 0x0000#16) := ⟨by decide, by decide, rfl⟩
theorem witness_NothingCrossesDuringReset : (pins true true 0x16E#10 true).rst = true ∧ (pins false true 0x16E#10 true).rst = false ∧
    cycle (pins true true 0x16E#10 true) (held 2#2 0x4D61#16) = .next (held 0#2 0x0000#16) := ⟨by decide, by decide, rfl⟩
theorem witness_AResetInMidFrameDropsTheHeldOctets : (pins true false 0x000#10 true).rst = true ∧
    runWords [0x14D#10, 0x161#10] State.reset = .next (held 2#2 0x4D61#16) := ⟨by decide, rfl⟩
theorem witness_ThePortsFollowTheirEquations : (held 2#2 0x4D61#16).cnt ≠ 3#2 ∧
    outPins (pins false true 0x16E#10 false) (held 2#2 0x4D61#16) = .next ⟨false, true, some 0x154574675#34⟩ := ⟨by decide, rfl⟩
theorem witness_ThePayloadPinsHaveNoValueWithoutOutValid :
    outPins (pins false true 0x16E#10 true) (held 1#2 0x4D00#16) = .next ⟨true, false, none⟩ := rfl
theorem witness_NothingIsSpecifiedBeforeTheFirstReset : (pins false true 0x16E#10 true).rst = false ∧
    (pins false true 0x16E#10 true).inValid = true ∧ (pins false false 0x000#10 true).rst = false ∧
      (pins false false 0x000#10 true).inValid = false ∧ (pins true true 0x16E#10 true).rst = true := by decide
theorem witness_TheFirstResetErasesThePowerUpState :
    (∀ q ∈ [pins false false 0x000#10 true], q.rst = false ∧ q.inValid = false) ∧ (pins true false 0x000#10 true).rst = true ∧
      (pins false true 0x16E#10 true).rst = false ∧ (pins false true 0x16E#10 true).inValid = true := by decide
theorem witness_BackPressureStallsAndNothingElseDoes : (pins false true 0x16E#10 false).rst = false ∧
    (pins false true 0x16E#10 false).outReady = false ∧ (pins false false 0x000#10 true).inValid = false ∧
      (pins false true 0x16E#10 true).inValid = true ∧ (pins false true 0x16E#10 true).outReady = true ∧
        (held 2#2 0x4D61#16).cnt ≠ 3#2 := by decide
theorem witness_AnOfferedOutputWordIsHeld : (pins false true 0x16E#10 false).rst = false ∧ (pins false true 0x16E#10 true).rst = false ∧
    upstreamHolds (pins false true 0x16E#10 false) (pins false true 0x16E#10 true) = true ∧
      outPins (pins false true 0x16E#10 false) (held 2#2 0x4D61#16) = .next ⟨false, true, some 0x154574675#34⟩ ∧
        (pins false true 0x16E#10 false).outReady = false ∧
          cycle (pins false true 0x16E#10 false) (held 2#2 0x4D61#16) = .next (held 2#2 0x4D61#16) :=
  ⟨by decide, by decide, by decide, rfl, by decide, rfl⟩
theorem witness_ClockEdgesRefineTheFoldOfTheStep : ∀ p ∈ [pins false true 0x14D#10 false, pins false true 0x14D#10 true], p.rst = false := by
  decide
theorem witness_TheDownstreamTakesExactlyTheEmittedWords :
    runCycles [pins false true 0x16E#10 false, pins false true 0x16E#10 true, pins true false 0x000#10 true] (held 2#2 0x4D61#16) =
      .next { held 0#2 0x0000#16 with output := [0x154574675#34] } := rfl

end Sys2Proof.Tests
end

/-! The frames of a run (00_scope.md R2, 41_stream_ops.md section 4). The octets of the open frame are full groups, whose
text has been emitted, and at most two octets more, which the registers hold; every accepted word keeps this. -/

namespace Sys2Proof.Proofs

open Sys2Proof.Machine Sys2Proof.Laws

/-! Cutting a stream into frames -/

/-- The input frames of a list of words that follows the octets `acc` of an open frame. -/
def inputFramesFrom (acc : List Octet) (ws : List InWord) : List (List Octet) × List Octet :=
  cutAt InWord.last InWord.octets (fun bs _ => bs) acc ws

/-- The output frames of a list of words that follows the text `acc` of an open frame. -/
def outputFramesFrom (acc : List Sym) (os : List OutWord) : List (List Sym) × List Sym :=
  cutAt OutWord.last wordText (fun t _ => t) acc os

theorem inputFrames_eq (ws : List InWord) : inputFrames ws = inputFramesFrom [] ws := rfl
theorem outputFrames_eq (os : List OutWord) : outputFrames os = outputFramesFrom [] os := rfl

@[simp] theorem inputFramesFrom_nil (acc : List Octet) : inputFramesFrom acc [] = ([], acc) := rfl
@[simp] theorem outputFramesFrom_nil (acc : List Sym) : outputFramesFrom acc [] = ([], acc) := rfl

theorem inputFramesFrom_cons_last {w : InWord} (hw : w.last = true) (acc : List Octet) (ws : List InWord) :
    inputFramesFrom acc (w :: ws) =
      ((acc ++ w.octets) :: (inputFramesFrom [] ws).1, (inputFramesFrom [] ws).2) := by
  simp [inputFramesFrom, cutAt, hw]

theorem inputFramesFrom_cons_inner {w : InWord} (hw : w.last = false) (acc : List Octet) (ws : List InWord) :
    inputFramesFrom acc (w :: ws) = inputFramesFrom (acc ++ w.octets) ws := by
  simp [inputFramesFrom, cutAt, hw]

theorem outputFramesFrom_cons_last {o : OutWord} (ho : o.last = true) (acc : List Sym) (os : List OutWord) :
    outputFramesFrom acc (o :: os) =
      ((acc ++ wordText o) :: (outputFramesFrom [] os).1, (outputFramesFrom [] os).2) := by
  simp [outputFramesFrom, cutAt, ho]

theorem outputFramesFrom_cons_inner {o : OutWord} (ho : o.last = false) (acc : List Sym) (os : List OutWord) :
    outputFramesFrom acc (o :: os) = outputFramesFrom (acc ++ wordText o) os := by
  simp [outputFramesFrom, cutAt, ho]

/-- What an operation that ends no frame emits, a word or none, lengthens the open frame. -/
theorem outputFramesFrom_emitted_inner {e : Option OutWord} (he : ∀ o ∈ e, o.last = false) (acc : List Sym)
    (os : List OutWord) :
    outputFramesFrom acc (e.toList ++ os) = outputFramesFrom (acc ++ textOf e.toList) os := by
  cases e with
  | none => simp [textOf]
  | some o => simp [textOf, outputFramesFrom_cons_inner (he o rfl)]

/-! The text of an output word -/

@[simp] theorem wordQ_last (q : Quad) : (wordQ q).last = false := outWord_last _ _ _
@[simp] theorem wordQL_last (q : Quad) : (wordQL q).last = true := outWord_last _ _ _
@[simp] theorem wordEL_last : wordEL.last = true := outWord_last _ _ _

@[simp] theorem wordText_wordQ (q : Quad) : wordText (wordQ q) = bytes4 q := by simp [wordText, wordQ]
@[simp] theorem wordText_wordQL (q : Quad) : wordText (wordQL q) = bytes4 q := by simp [wordText, wordQL]
@[simp] theorem wordText_wordEL : wordText wordEL = [] := by simp [wordText, wordEL]

/-! The reference function at a group boundary -/

theorem refEncode_nil : refEncode [] = [] := rfl

/-- 40_reference_codec.md R65 (a). -/
theorem refEncode_append_of_full : ∀ (xs ys : List Octet), xs.length % 3 = 0 →
    refEncode (xs ++ ys) = refEncode xs ++ refEncode ys
  | [], _, _ => rfl
  | [_], _, h | [_, _], _, h => by simp at h
  | a :: b :: c :: xs, ys, h => by
    have hxs : xs.length % 3 = 0 := by simp only [List.length_cons] at h; omega
    simp [refEncode_group, refEncode_append_of_full xs ys hxs]

/-! The octets the registers hold -/

/-- The registers hold the octets of a group begun (10_state.md R14, R15). -/
inductive HeldOctets : Cnt → Hold → List Octet → Prop
  | zero : HeldOctets 0#2 0x0000#16 []
  | one (a : Octet) : HeldOctets 1#2 (a ++ 0x00#8) [a]
  | two (a b : Octet) : HeldOctets 2#2 (a ++ b) [a, b]

theorem HeldOctets.length_lt {c : Cnt} {h : Hold} {r : List Octet} (hr : HeldOctets c h r) : r.length < 3 := by
  cases hr <;> simp

theorem heldOctets_of_emptyRegs {s : State} (hs : EmptyRegs s) : HeldOctets s.cnt s.hold [] := by
  obtain ⟨hc, hh⟩ := hs
  rw [hc, hh]
  exact .zero

/-- A word with `last = 1` empties the registers and emits, as the last word of the frame, the text of the held octets
and its own (41_stream_ops.md R71, R72). -/
theorem HeldOctets.effect_last {w : InWord} (hw : w.last = true) {c : Cnt} {h : Hold} {r : List Octet}
    (hr : HeldOctets c h r) :
    ∃ o, effectOf (decode w) c h = some (.emptied o) ∧ o.last = true ∧ wordText o = refEncode (r ++ w.octets) := by
  obtain ⟨l, k, d, rfl⟩ := exists_inWord w
  obtain rfl : l = true := by simpa using hw
  cases k with
  | false =>
    rw [decode_end_word]
    cases hr with
    | zero => exact ⟨_, endEffect_zero 0x0000#16, by simp, by simp [refEncode]⟩
    | one a => exact ⟨_, endEffect_one _, by simp, by simp [refEncode]⟩
    | two a b => exact ⟨_, endEffect_two _, by simp, by simp [refEncode]⟩
  | true =>
    rw [decode_dlast_word]
    cases hr with
    | zero => exact ⟨_, dlastEffect_zero d 0x0000#16, by simp, by simp [refEncode]⟩
    | one a => exact ⟨_, dlastEffect_one _ _, by simp, by simp [refEncode]⟩
    | two a b => exact ⟨_, dlastEffect_two _ _, by simp, by simp [refEncode]⟩

/-- A word with `last = 0` splits the held octets and its own into full groups `g`, whose text it emits, and the octets
`r'` held next (41_stream_ops.md R69, R70). -/
theorem HeldOctets.effect_inner {w : InWord} (hw : w.last = false) {c : Cnt} {h : Hold} {r : List Octet}
    (hr : HeldOctets c h r) :
    ∃ e g r', effectOf (decode w) c h = some e ∧ r ++ w.octets = g ++ r' ∧ g.length % 3 = 0 ∧
      HeldOctets e.cnt e.hold r' ∧ (∀ o ∈ e.emitted, o.last = false) ∧ textOf e.emitted.toList = refEncode g := by
  obtain ⟨l, k, d, rfl⟩ := exists_inWord w
  obtain rfl : l = false := by simpa using hw
  cases k with
  | false =>
    have hnull : effectOf (decode (inWord false false d)) c h = some ⟨c, h, none⟩ := by
      rw [decode_null_word]
      cases hr <;> rfl
    exact ⟨_, [], r, hnull, by simp, rfl, hr, by simp, rfl⟩
  | true =>
    rw [decode_data_word]
    cases hr with
    | zero => exact ⟨_, [], [d], dataEffect_zero d 0x0000#16, by simp, rfl, .one d, by simp, rfl⟩
    | one a => exact ⟨_, [], [a, d], dataEffect_one _ _, by simp, rfl, by simpa using .two a d, by simp, rfl⟩
    | two a b => exact ⟨_, [a, b, d], [], dataEffect_two _ _, by simp, by simp, .zero, by simp,
        by simp [textOf, refEncode]⟩

/-! The run -/

/-- The open frame is the full groups `g` and the octets `r` the registers hold. -/
structure OpenFrame (g r : List Octet) (s : State) : Prop where
  full : g.length % 3 = 0
  held : HeldOctets s.cnt s.hold r

theorem OpenFrame.of_emptyRegs {s : State} (hs : EmptyRegs s) : OpenFrame [] [] s := ⟨rfl, heldOctets_of_emptyRegs hs⟩

/-- The full groups of the open frame are the longest part of it that ends on a group boundary. -/
theorem OpenFrame.take_full {g r : List Octet} {s : State} (h : OpenFrame g r s) :
    (g ++ r).take (3 * ((g ++ r).length / 3)) = g := by
  have hg := h.full
  have hr := h.held.length_lt
  have hlen : 3 * ((g ++ r).length / 3) = g.length := by rw [List.length_append]; omega
  rw [hlen, List.take_left]

/-- Accepting a word that ends the frame emits the frame's remaining text and starts the next frame. -/
theorem OpenFrame.accept_last {g r : List Octet} {s : State} (h : OpenFrame g r s) {w : InWord}
    (hw : w.last = true) :
    ∃ t o, accept w s = .next t ∧ t.output = s.output ++ [o] ∧ o.last = true ∧
      refEncode g ++ wordText o = refEncode (g ++ r ++ w.octets) ∧ OpenFrame [] [] t := by
  obtain ⟨o, he, ho, htext⟩ := h.held.effect_last hw
  refine ⟨_, o, exec_of_effect he, rfl, ho, ?_, rfl, .zero⟩
  rw [List.append_assoc, refEncode_append_of_full g _ h.full, htext]

/-- Accepting a word that ends no frame emits the text of the full groups it completes. -/
theorem OpenFrame.accept_inner {g r : List Octet} {s : State} (h : OpenFrame g r s) {w : InWord}
    (hw : w.last = false) :
    ∃ t e g' r', accept w s = .next t ∧ t.output = s.output ++ Option.toList e ∧ (∀ o ∈ e, o.last = false) ∧
      g ++ r ++ w.octets = g' ++ r' ∧ refEncode g ++ textOf e.toList = refEncode g' ∧ OpenFrame g' r' t := by
  obtain ⟨e, g₁, r', he, hsplit, hg₁, hheld, hinner, htext⟩ := h.held.effect_inner hw
  have hg := h.full
  refine ⟨_, e.emitted, g ++ g₁, r', exec_of_effect he, emitTo_eq_append _ _, hinner, ?_, ?_, ?_, hheld⟩
  · rw [List.append_assoc, hsplit, List.append_assoc]
  · rw [htext, refEncode_append_of_full g _ hg]
  · rw [List.length_append]; omega

/-- A run that finds the frame `g ++ r` open, the text of `g` emitted, completes that frame and the next ones with their
encodings and leaves a frame open in the same way. -/
theorem OpenFrame.runWords_frames (ws : List InWord) {g r : List Octet} {s : State} (h : OpenFrame g r s) :
    ∃ t outs g' r', runWords ws s = .next t ∧ t.output = s.output ++ outs ∧ OpenFrame g' r' t ∧
      (inputFramesFrom (g ++ r) ws).2 = g' ++ r' ∧
      outputFramesFrom (refEncode g) outs = ((inputFramesFrom (g ++ r) ws).1.map refEncode, refEncode g') := by
  induction ws generalizing g r s with
  | nil => exact ⟨s, [], g, r, rfl, by simp, h, rfl, rfl⟩
  | cons w ws ih =>
    cases hw : w.last with
    | true =>
      obtain ⟨u, o, hu, huout, ho, htext, hopen⟩ := h.accept_last hw
      obtain ⟨t, outs, g', r', hrun, hout, ht, hin, hframes⟩ := ih hopen
      refine ⟨t, o :: outs, g', r', by simp [hu, hrun], by simp [hout, huout], ht, ?_, ?_⟩
      · rw [inputFramesFrom_cons_last hw]
        exact hin
      · rw [List.append_nil, refEncode_nil] at hframes
        rw [outputFramesFrom_cons_last ho, inputFramesFrom_cons_last hw, hframes, htext, List.map_cons]
    | false =>
      obtain ⟨u, e, g₁, r₁, hu, huout, he, hsplit, htext, hopen⟩ := h.accept_inner hw
      obtain ⟨t, outs, g', r', hrun, hout, ht, hin, hframes⟩ := ih hopen
      refine ⟨t, e.toList ++ outs, g', r', by simp [hu, hrun], by simp [hout, huout], ht, ?_, ?_⟩
      · rw [inputFramesFrom_cons_inner hw, hsplit, hin]
      · rw [outputFramesFrom_emitted_inner he, htext, inputFramesFrom_cons_inner hw, hsplit, hframes]

/-- Settles O33: empty registers hold an open frame of no octets, and the run keeps the open frame's full groups apart
from the octets held. -/
theorem everyOutputFrameIsTheEncodingOfItsInputFrame :
    Obligations.EveryOutputFrameIsTheEncodingOfItsInputFrame := by
  unfold Obligations.EveryOutputFrameIsTheEncodingOfItsInputFrame
  intro ws s hs
  obtain ⟨t, outs, g, r, hrun, hout, hopen, hin, hframes⟩ := (OpenFrame.of_emptyRegs hs).runWords_frames ws
  rw [List.append_nil, ← inputFrames_eq] at hin hframes
  rw [refEncode_nil, ← outputFrames_eq] at hframes
  refine ⟨t, outs, hrun, hout, ?_, ?_⟩
  · rw [hframes]
  · rw [hframes, hin, hopen.take_full]

end Sys2Proof.Proofs

/-! The ports in one cycle (10_state.md R19, 41_stream_ops.md R74): where the offered word's operation has an effect, the
pins are the equations' values, and the payload is the word of that effect. -/

namespace Sys2Proof.Proofs

open Sys2Proof.Machine Sys2Proof.Laws

/-- The output pins by the port equations, in every specified phase: `out_ready` stands in `in_ready` alone. -/
theorem outPins_of_effect {p : InPins} {s : State} {e : Effect} (he : effectOf (decode p.word) s.cnt s.hold = some e) :
    outPins p s = .next
      { inReady := p.inReady
        outValid := p.inValid && emits s.cnt p.word && !p.rst
        payload := if p.inValid && !p.rst then e.emitted else none } := by
  unfold outPins
  split
  · next hoffered =>
    obtain ⟨hvalid, hrst⟩ : p.inValid = true ∧ p.rst = false := by simpa using hoffered
    simp [he, hvalid, hrst]
  · next hidle =>
    have hvalid : (p.inValid && emits s.cnt p.word && !p.rst) = false := by
      rw [Bool.and_right_comm, Bool.eq_false_of_not_eq_true hidle, Bool.false_and]
    rw [hvalid]

/-- The word an operation's effect emits is the one it appends to the output stream. -/
theorem exec_appends_emitted {i : Instr} {s : State} {e : Effect} {w : OutWord}
    (he : effectOf i s.cnt s.hold = some e) (hw : e.emitted = some w) :
    ∃ t : State, exec i s = .next t ∧ t.output = s.output ++ [w] :=
  ⟨_, exec_of_effect he, by simp [hw]⟩

/-- Settles O50: the pins are the port equations over the offered word's effect, which `out_ready` does not enter, and
`emits` says when that effect has a word. -/
theorem thePortsFollowTheirEquations : Obligations.ThePortsFollowTheirEquations := by
  unfold Obligations.ThePortsFollowTheirEquations
  intro p s hs
  obtain ⟨e, he⟩ := effect_exists (decode p.word) s.hold hs
  have hready (b : Bool) := outPins_of_effect (p := { p with outReady := b }) he
  refine ⟨_, outPins_of_effect he, rfl, rfl, ?present, ?emitted, fun b => ⟨_, hready b, rfl, fun _ => rfl⟩, ?edge⟩
  case present =>
    intro hvalid
    obtain ⟨⟨hin, hemits⟩, hrst⟩ : (p.inValid = true ∧ emits s.cnt p.word = true) ∧ p.rst = false := by
      simpa using hvalid
    simpa [hin, hrst] using (effect_emits he).trans hemits
  case emitted =>
    intro w hpayload
    obtain ⟨-, hw⟩ : (p.inValid = true ∧ p.rst = false) ∧ e.emitted = some w := by simpa using hpayload
    exact exec_appends_emitted he hw
  case edge => rfl

end Sys2Proof.Proofs

/-! The two beat words and the alphabet (30_encoding.md R39 to R47). -/

namespace Sys2Proof.Proofs

open Sys2Proof.Machine Sys2Proof.Laws

/-! The output word (30_encoding.md R42, R43) -/

/-- Every word an operation emits is a `Q`, a `QL` or the `EL`. -/
theorem effect_emitted_form {i : Instr} {c : Cnt} {h : Hold} {e : Effect} {o : OutWord}
    (he : effectOf i c h = some e) (ho : e.emitted = some o) :
    (∃ q, o = wordQ q) ∨ (∃ q, o = wordQL q) ∨ o = wordEL := by
  rcases effect_cases he with ⟨_, _, rfl⟩ | ⟨_, _, _, rfl⟩ | ⟨_, _, _, rfl⟩ | ⟨_, _, _, rfl⟩ | ⟨_, _, rfl⟩ |
    ⟨_, _, rfl⟩ | ⟨_, _, rfl⟩ | ⟨_, _, _, rfl⟩ | ⟨_, _, _, rfl⟩ | ⟨_, _, _, rfl⟩ <;> simp at ho <;> simp [← ho]

/-- The one word a completed operation appends is the one its effect emits. -/
theorem exec_emitted_of_append {i : Instr} {s t : State} {o : OutWord} (h : exec i s = .next t)
    (ho : t.output = s.output ++ [o]) : ∃ e, effectOf i s.cnt s.hold = some e ∧ e.emitted = some o := by
  obtain ⟨e, he, rfl⟩ := exec_next h
  have happend : s.output ++ e.emitted.toList = s.output ++ [o] := (emitTo_eq_append _ _).symm.trans ho
  exact ⟨e, he, Option.toList_eq_singleton_iff.mp (List.append_cancel_left happend)⟩

/-- The only word without symbols that an operation emits is `EL`. -/
theorem effect_emitted_without_symbols {i : Instr} {c : Cnt} {h : Hold} {e : Effect} {o : OutWord}
    (he : effectOf i c h = some e) (ho : e.emitted = some o) (hk : o.keep = false) : o = wordEL := by
  obtain ⟨q, rfl⟩ | ⟨q, rfl⟩ | rfl := effect_emitted_form he ho
  · simp [wordQ] at hk
  · simp [wordQL] at hk
  · rfl

/-- Settles O15: the fields are the slices of the concatenation, and an emitted word with `keep = 0` is `EL`. -/
theorem outputWordFieldsLieAsTheFormatSays : Obligations.OutputWordFieldsLieAsTheFormatSays := by
  unfold Obligations.OutputWordFieldsLieAsTheFormatSays
  refine ⟨fun l k c₀ c₁ c₂ c₃ => ⟨outWord_last .., outWord_keep .., ?_, ?_, ?_, ?_⟩, ?_⟩
  · exact (outWord_slice l k _ 24 8 (by omega)).trans (quad_slice_24 c₀ c₁ c₂ c₃)
  · exact (outWord_slice l k _ 16 8 (by omega)).trans (quad_slice_16 c₀ c₁ c₂ c₃)
  · exact (outWord_slice l k _ 8 8 (by omega)).trans (quad_slice_8 c₀ c₁ c₂ c₃)
  · exact (outWord_slice l k _ 0 8 (by omega)).trans (quad_slice_0 c₀ c₁ c₂ c₃)
  · intro i s t o hexec hout hkeep
    obtain ⟨e, he, ho⟩ := exec_emitted_of_append hexec hout
    rw [effect_emitted_without_symbols he ho hkeep]
    exact outWord_sym true false 0x00000000#32

/-! The input word (30_encoding.md R39, R40) -/

/-- `last` and `keep` are the number of the word's 256-word range. -/
theorem inWord_range (l k : Bool) (d : Octet) : (inWord l k d).toNat / 256 = 2 * l.toNat + k.toNat := by
  have hd := d.isLt
  rw [inWord, BitVec.toNat_append, BitVec.toNat_append, ← Nat.shiftLeft_add_eq_or_of_lt hd,
    ← Nat.shiftLeft_add_eq_or_of_lt (BitVec.ofBool k).isLt]
  simp only [BitVec.toNat_ofBool, Nat.shiftLeft_eq]
  omega

/-- Settles O12: a word is its three fields, and its range is the value of `last` and `keep`. -/
theorem lastAndKeepSelectTheOperation : Obligations.LastAndKeepSelectTheOperation := by
  unfold Obligations.LastAndKeepSelectTheOperation
  refine ⟨fun w => (inWord_fields w).symm, fun w => ?_⟩
  obtain ⟨l, k, d, rfl⟩ := exists_inWord w
  have hdata : (inWord l k d).extractLsb' 0 8 = d := inWord_data l k d
  rw [inWord_range, hdata]
  cases l <;> cases k <;> simp

/-! The alphabet (30_encoding.md R46, R47) -/

/-- The table of codes. -/
theorem alphabetCodes_get (i : Index) : alphabetCodes[i.toNat]? = some (symCode i) := by
  revert i; decide

/-- The table of characters. -/
theorem alphabet_get (i : Index) : (alphabet[i.toNat]?).map Char.toNat = some (symCode i).toNat := by
  revert i; decide

/-! The closed form on the three ranges; the two single indices have their codes by computation. -/

theorem symCode_upper (i : Index) (h : i.toNat ≤ 25) : (symCode i).toNat = 0x41 + i.toNat := by
  revert i; decide
theorem symCode_lower (i : Index) (h : 26 ≤ i.toNat) (h' : i.toNat ≤ 51) :
    (symCode i).toNat = 0x61 + (i.toNat - 26) := by
  revert i; decide
theorem symCode_digit (i : Index) (h : 52 ≤ i.toNat) (h' : i.toNat ≤ 61) :
    (symCode i).toNat = 0x30 + (i.toNat - 52) := by
  revert i; decide

/-- No code of the table is above `z`, and none is `-` or `_`. -/
theorem alphabetCodes_bounds : ∀ c ∈ alphabetCodes, c ≤ 0x7A#8 ∧ c ≠ 0x2D#8 ∧ c ≠ 0x5F#8 := by decide

/-- The inverse symbol map makes `S` injective. -/
theorem symCode_injective {i j : Index} (h : symCode i = symCode j) : i = j :=
  Option.some.inj ((symIndex_symCode i).symm.trans ((congrArg symIndex h).trans (symIndex_symCode j)))

/-- Settles O16: the tables and the closed form index by index, the bounds from the table of codes, injectivity from the
inverse map. -/
theorem symbolCodesFollowTheAlphabet : Obligations.SymbolCodesFollowTheAlphabet := by
  unfold Obligations.SymbolCodesFollowTheAlphabet
  intro i
  obtain ⟨hmax, hminus, hunderscore⟩ := alphabetCodes_bounds _ (symCode_mem i)
  refine ⟨alphabetCodes_get i, alphabet_get i, symCode_upper i, symCode_lower i, symCode_digit i, ?plus, ?slash,
    symCode_ne_pad i, hmax, hminus, hunderscore, fun j => symCode_injective⟩
  case plus =>
    intro h
    obtain rfl : i = 62#6 := BitVec.eq_of_toNat_eq h
    rfl
  case slash =>
    intro h
    obtain rfl : i = 63#6 := BitVec.eq_of_toNat_eq h
    rfl

end Sys2Proof.Proofs

/-! The pseudo-operations (30_encoding.md R50). `FRAME` and `FRAMEL` are frames of the same octets, so they give the same
text; they part at the last octet, where `FRAME` emits one word more exactly when that octet completes a group. -/

namespace Sys2Proof.Proofs

open Sys2Proof.Machine Sys2Proof.Laws

/-! The expansion of `FRAMEL` -/

theorem framelOps_cons {b : Octet} {bs : List Octet} (h : bs ≠ []) :
    framelOps (b :: bs) = (framelOps bs).map (Instr.data b :: ·) := by
  cases bs with
  | nil => exact absurd rfl h
  | cons => rfl

theorem framelOps_append (bs : List Octet) (b : Octet) :
    framelOps (bs ++ [b]) = some (bs.map Instr.data ++ [.dlast b]) := by
  induction bs with
  | nil => rfl
  | cons a bs ih => simp [framelOps_cons, ih]

/-! The text of a frame -/

/-- Cutting an output stream into frames keeps its text. -/
theorem outputFramesFrom_flatten (acc : List Sym) (os : List OutWord) :
    (outputFramesFrom acc os).1.flatten ++ (outputFramesFrom acc os).2 = acc ++ textOf os := by
  induction os generalizing acc with
  | nil => simp [textOf]
  | cons o os ih =>
    have htext : textOf (o :: os) = wordText o ++ textOf os := List.flatMap_cons
    cases ho : o.last with
    | true => simp [outputFramesFrom_cons_last ho, ih, htext]
    | false => simp [outputFramesFrom_cons_inner ho, ih, htext]

/-- Words that end no frame lengthen the open frame by their octets. -/
theorem inputFramesFrom_append_inner {ws : List InWord} (hws : ∀ w ∈ ws, w.last = false) (acc : List Octet)
    (ws' : List InWord) : inputFramesFrom acc (ws ++ ws') = inputFramesFrom (acc ++ octetsOf ws) ws' := by
  induction ws generalizing acc with
  | nil => simp [octetsOf]
  | cons w ws ih =>
    obtain ⟨hw, hws⟩ := List.forall_mem_cons.mp hws
    simp [inputFramesFrom_cons_inner hw, ih hws, octetsOf]

/-- The words of one frame are cut into that frame alone. -/
theorem inputFrames_of_isFrameOf {ws : List InWord} {bs : List Octet} (h : isFrameOf ws bs) :
    inputFrames ws = ([bs], []) := by
  obtain ⟨rfl, front, final, rfl, hfinal, hfront⟩ := h
  rw [inputFrames_eq, inputFramesFrom_append_inner hfront, inputFramesFrom_cons_last hfinal]
  simp [octetsOf]

/-- The words of one frame give the text of its octets. -/
theorem runWords_frame_text {ws : List InWord} {bs : List Octet} {s : State} (hs : EmptyRegs s)
    (h : isFrameOf ws bs) :
    ∃ t outs, runWords ws s = .next t ∧ t.output = s.output ++ outs ∧ textOf outs = refEncode bs := by
  obtain ⟨t, outs, hrun, hout, hclosed, hopen⟩ := everyOutputFrameIsTheEncodingOfItsInputFrame ws s hs
  rw [inputFrames_of_isFrameOf h, outputFrames_eq] at hclosed hopen
  have htext := outputFramesFrom_flatten [] outs
  exact ⟨t, outs, hrun, hout, by simpa [hclosed, hopen, refEncode_nil] using htext.symm⟩

/-! The words of the pseudo-operations -/

theorem dataWords_inner (bs : List Octet) : ∀ w ∈ (bs.map Instr.data).map encode, w.last = false := by
  simp [encode]

theorem octetsOf_dataWords (bs : List Octet) : octetsOf ((bs.map Instr.data).map encode) = bs := by
  induction bs with
  | nil => rfl
  | cons b bs ih => simpa [octetsOf, encode] using ih

/-- The words of `DATA` operations and a closing operation are one frame. -/
theorem isFrameOf_dataWords (bs : List Octet) {i : Instr} (hi : (encode i).last = true) :
    isFrameOf ((bs.map Instr.data ++ [i]).map encode) (bs ++ (encode i).octets) := by
  rw [List.map_append]
  refine ⟨?_, _, _, rfl, hi, dataWords_inner bs⟩
  calc octetsOf ((bs.map Instr.data).map encode ++ [encode i])
      = octetsOf ((bs.map Instr.data).map encode) ++ (encode i).octets := by simp [octetsOf]
    _ = bs ++ (encode i).octets := by rw [octetsOf_dataWords]

theorem isFrameOf_frame (bs : List Octet) : isFrameOf ((bs.map Instr.data ++ [Instr.endFrame]).map encode) bs := by
  have h := isFrameOf_dataWords bs (i := .endFrame) (inWord_last ..)
  rwa [show (encode .endFrame).octets = [] from inWord_octets .., List.append_nil] at h

theorem isFrameOf_framel (bs : List Octet) (b : Octet) :
    isFrameOf ((bs.map Instr.data ++ [Instr.dlast b]).map encode) (bs ++ [b]) := by
  have h := isFrameOf_dataWords bs (i := .dlast b) (inWord_last ..)
  rwa [show (encode (.dlast b)).octets = [b] from inWord_octets ..] at h

/-! The number of output words -/

theorem runWords_singleton (w : InWord) (s : State) : runWords [w] s = accept w s := by
  rw [runWords_cons]
  cases accept w s <;> rfl

/-- 41_stream_ops.md R74: accepting a word lengthens the output by one word where `emits` says so. -/
theorem accept_output_length {w : InWord} {s t : State} (h : accept w s = .next t) :
    t.output.length = s.output.length + (emits s.cnt w).toNat := by
  obtain ⟨e, he, rfl⟩ := exec_next h
  rw [← effect_emits he]
  cases e.emitted <;> simp

theorem HeldOctets.cnt_toNat {c : Cnt} {h : Hold} {r : List Octet} (hr : HeldOctets c h r) : c.toNat = r.length := by
  cases hr <;> rfl

/-- The phase is the number of octets of the open frame modulo 3 (10_state.md R15). -/
theorem OpenFrame.cnt_toNat {g r : List Octet} {s : State} (h : OpenFrame g r s) :
    s.cnt.toNat = (g ++ r).length % 3 := by
  have hg := h.full
  have hr := h.held.length_lt
  rw [h.held.cnt_toNat, List.length_append]
  omega

/-- After the octets of an open frame the phase is their number modulo 3. -/
theorem runWords_dataWords {s : State} (hs : EmptyRegs s) (bs : List Octet) :
    ∃ u, runWords ((bs.map Instr.data).map encode) s = .next u ∧ u.cnt.toNat = bs.length % 3 := by
  obtain ⟨u, -, g, r, hrun, -, hopen, hin, -⟩ :=
    (OpenFrame.of_emptyRegs hs).runWords_frames ((bs.map Instr.data).map encode)
  have hoctets : bs = g ++ r := by
    have h := inputFramesFrom_append_inner (dataWords_inner bs) [] []
    rw [octetsOf_dataWords, List.append_nil] at h
    rw [← hin, List.append_nil, h]
    rfl
  exact ⟨u, hrun, by rw [hopen.cnt_toNat, ← hoctets]⟩

/-- Where `FRAME` and `FRAMEL` part, at the last octet, `FRAME` emits one word more exactly in phase 2. -/
theorem data_end_output_length {b : Octet} {u t t' : State}
    (ht : runWords [encode (.data b), encode .endFrame] u = .next t) (ht' : accept (encode (.dlast b)) u = .next t') :
    t.output.length = t'.output.length + if u.cnt = 2#2 then 1 else 0 := by
  obtain ⟨v, hv, htv⟩ := andThen_eq_next ht
  rw [runWords_singleton] at htv
  have hdata := accept_output_length hv
  have hend := accept_output_length htv
  have hdlast := accept_output_length ht'
  have emits_data : emits u.cnt (encode (.data b)) = (u.cnt == 2#2) := by simp [emits, encode]
  have emits_end : emits v.cnt (encode .endFrame) = true := by simp [emits, encode]
  have emits_dlast : emits u.cnt (encode (.dlast b)) = true := by simp [emits, encode]
  rw [hend, hdata, hdlast, emits_data, emits_end, emits_dlast]
  by_cases hc : u.cnt = 2#2 <;> simp [hc]

/-- `FRAME` emits one word more than `FRAMEL` exactly when the octets are full groups. -/
theorem frame_framel_output_length {bs : List Octet} {b : Octet} {s t t' : State} (hs : EmptyRegs s)
    (ht : runWords (((bs ++ [b]).map Instr.data ++ [Instr.endFrame]).map encode) s = .next t)
    (ht' : runWords ((bs.map Instr.data ++ [Instr.dlast b]).map encode) s = .next t') :
    t.output.length = t'.output.length + if (bs ++ [b]).length % 3 = 0 then 1 else 0 := by
  obtain ⟨u, hu, hcnt⟩ := runWords_dataWords hs bs
  have htail : runWords [encode (.data b), encode .endFrame] u = .next t := by
    simpa only [List.map_append, List.map_cons, List.map_nil, List.append_assoc, List.cons_append, List.nil_append,
      runWords_append, hu, andThen_next] using ht
  have hlast : accept (encode (.dlast b)) u = .next t' := by
    rwa [List.map_append, runWords_append, hu, andThen_next, List.map_singleton, runWords_singleton] at ht'
  have hphase : u.cnt = 2#2 ↔ (bs ++ [b]).length % 3 = 0 := by
    rw [← BitVec.toNat_inj, hcnt, List.length_append, List.length_singleton, BitVec.toNat_ofNat]
    omega
  rw [data_end_output_length htail hlast]
  simp only [hphase]

/-- Settles O17: `FRAME` and `FRAMEL` are frames of the same octets, so their texts are those octets' encoding; their
words are counted where they part, at the last octet. -/
theorem frameAndFramelExpandToTheSameText : Obligations.FrameAndFramelExpandToTheSameText := by
  unfold Obligations.FrameAndFramelExpandToTheSameText
  refine ⟨fun _ => rfl, framelOps_append, rfl, fun _ => rfl, ?_⟩
  intro bs ops ops' s hs hframe hframel
  obtain rfl : bs.map Instr.data ++ [Instr.endFrame] = ops := Option.some.inj hframe
  induction bs using List.reverseRecOn with
  | nil => exact absurd hframel (by simp [PseudoOp.expand, framelOps])
  | append_singleton bs b _ =>
    obtain rfl : bs.map Instr.data ++ [Instr.dlast b] = ops' := Option.some.inj ((framelOps_append bs b).symm.trans hframel)
    obtain ⟨t, outs, hrun, hout, htext⟩ := runWords_frame_text hs (isFrameOf_frame (bs ++ [b]))
    obtain ⟨t', outs', hrun', hout', htext'⟩ := runWords_frame_text hs (isFrameOf_framel bs b)
    refine ⟨t, t', outs, outs', hrun, hrun', hout, hout', htext, htext', ?_⟩
    have hlength := frame_framel_output_length hs hrun hrun'
    rw [hout, hout', List.length_append, List.length_append, Nat.add_assoc] at hlength
    exact Nat.add_left_cancel hlength

end Sys2Proof.Proofs

/-! The reference function (40_reference_codec.md): the symbols of each quad in terms of its octets, and the length and
the symbols of the text of any input. -/

namespace Sys2Proof.Proofs

open Sys2Proof.Machine Sys2Proof.Laws

/-! The quads in terms of their octets -/

/-- 40_reference_codec.md R55. -/
theorem bytes4_q4_octets (a b c : Octet) : bytes4 (q4 (a ++ b ++ c)) =
    [symCode (a.extractLsb' 2 6), symCode (a.extractLsb' 0 2 ++ b.extractLsb' 4 4),
      symCode (b.extractLsb' 0 4 ++ c.extractLsb' 6 2), symCode (c.extractLsb' 0 6)] := by
  rw [bytes4_q4, group_slice_18, group_slice_12, group_slice_6, group_slice_0]

/-- 40_reference_codec.md R59. -/
theorem bytes4_q1_octets (a : Octet) : bytes4 (q1 a) =
    [symCode (a.extractLsb' 2 6), symCode (a.extractLsb' 0 2 ++ 0b0000#4), pad, pad] := by
  rw [bytes4_q1, group_slice_18, group_slice_12]
  rfl

/-- 40_reference_codec.md R60. -/
theorem bytes4_q2_octets (a b : Octet) : bytes4 (q2 a b) =
    [symCode (a.extractLsb' 2 6), symCode (a.extractLsb' 0 2 ++ b.extractLsb' 4 4),
      symCode (b.extractLsb' 0 4 ++ 0b00#2), pad] := by
  rw [bytes4_q2, group_slice_18, group_slice_12, group_slice_6]
  rfl

/-- The indices 0, 16, 32 and 48 are those of `A`, `Q`, `g` and `w`. -/
theorem symCode_append_four_zeros : ∀ i : BitVec 2, symCode (i ++ 0b0000#4) ∈ [0x41#8, 0x51#8, 0x67#8, 0x77#8] := by
  decide

theorem append_two_zeros_toNat_mod_four {n : Nat} (i : BitVec n) : (i ++ 0b00#2).toNat % 4 = 0 := by
  rw [BitVec.toNat_append, BitVec.toNat_ofNat, Nat.zero_mod, Nat.or_zero, Nat.shiftLeft_eq]
  exact Nat.mul_mod_left ..

/-- Settles O19: the four slices of the joined group lie in its octets as R55 says. -/
theorem aFullGroupIsSplitMostSignificantFirst : Obligations.AFullGroupIsSplitMostSignificantFirst := by
  unfold Obligations.AFullGroupIsSplitMostSignificantFirst
  intro a b c
  exact ⟨by rw [refEncode_group, refEncode_nil, List.append_nil], bytes4_q4_octets a b c⟩

/-- Settles O20: a remainder's quad is that of the group filled with zero octets, with pads for the symbols no octet
reaches. -/
theorem remaindersAreZeroFilledAndPadded : Obligations.RemaindersAreZeroFilledAndPadded := by
  unfold Obligations.RemaindersAreZeroFilledAndPadded
  exact ⟨fun a => ⟨bytes4_q1_octets a, symCode_append_four_zeros _⟩,
    fun a b => ⟨bytes4_q2_octets a b, append_two_zeros_toNat_mod_four _⟩⟩

/-! The text of any input -/

@[simp] theorem bytes4_length (q : Quad) : (bytes4 q).length = 4 := rfl

/-- 40_reference_codec.md R63: four symbols for each group begun. -/
theorem refEncode_length : ∀ bs : List Octet, (refEncode bs).length = 4 * ((bs.length + 2) / 3)
  | [] => rfl
  | [_] | [_, _] => by simp [refEncode]
  | a :: b :: c :: bs => by
    rw [refEncode_group, List.length_append, bytes4_length, refEncode_length bs]
    simp only [List.length_cons]
    omega

/-- Settles O22: the other forms of the law are arithmetic of the first. -/
theorem theTextHasFourSymbolsPerStartedGroup : Obligations.TheTextHasFourSymbolsPerStartedGroup := by
  unfold Obligations.TheTextHasFourSymbolsPerStartedGroup
  intro bs
  rw [refEncode_length]
  exact ⟨rfl, Nat.mul_mod_right .., fun _ => by omega, fun _ => by omega, rfl⟩

theorem mem_bytes4_q4 (v : Group) : ∀ c ∈ bytes4 (q4 v), c ∈ alphabetCodes := by
  simp [bytes4_q4, symCode_mem]

theorem mem_bytes4_q1 (a : Octet) : ∀ c ∈ bytes4 (q1 a), c ∈ alphabetCodes ∨ c = pad := by
  simp [bytes4_q1, symCode_mem]

theorem mem_bytes4_q2 (a b : Octet) : ∀ c ∈ bytes4 (q2 a b), c ∈ alphabetCodes ∨ c = pad := by
  simp [bytes4_q2, symCode_mem]

/-- 40_reference_codec.md R62, for the groups one by one. -/
theorem mem_refEncode {c : Sym} : ∀ {bs : List Octet}, c ∈ refEncode bs → c ∈ alphabetCodes ∨ c = pad
  | [], h => absurd h List.not_mem_nil
  | [a], h => mem_bytes4_q1 a c h
  | [a, b], h => mem_bytes4_q2 a b c h
  | a :: b :: d :: bs, h => by
    rw [refEncode_group, List.mem_append] at h
    exact h.elim (fun hgroup => .inl (mem_bytes4_q4 _ c hgroup)) mem_refEncode

/-- Carriage return, line feed and space are among neither the 64 codes nor the pad. -/
theorem alphabetCodes_pad_no_blank :
    ∀ c ∈ pad :: alphabetCodes, c ≠ 0x0D#8 ∧ c ≠ 0x0A#8 ∧ c ≠ 0x20#8 := by decide

/-- Settles O24: every symbol stands in the quad of some group, and no quad holds another code. -/
theorem theTextHoldsAlphabetAndPadOnly : Obligations.TheTextHoldsAlphabetAndPadOnly := by
  unfold Obligations.TheTextHoldsAlphabetAndPadOnly
  intro bs c hc
  have hcode := mem_refEncode hc
  exact ⟨hcode, alphabetCodes_pad_no_blank c (List.mem_cons.mpr hcode.symm)⟩

end Sys2Proof.Proofs

/-! The four operations (41_stream_ops.md R69 to R72): the word of each by its range, and its next state by landing its
effect, phase by phase. -/

namespace Sys2Proof.Proofs

open Sys2Proof.Machine Sys2Proof.Laws

/-- Whether a word brings its octet is the low bit of the number of its range (30_encoding.md R39, R40). -/
theorem octets_eq_of_range (w : InWord) : w.octets = if w.toNat / 256 % 2 = 1 then [w.extractLsb' 0 8] else [] := by
  obtain ⟨l, k, d, rfl⟩ := exists_inWord w
  have hdata : (inWord l k d).extractLsb' 0 8 = d := inWord_data l k d
  rw [inWord_range, hdata]
  cases k <;> simp [Nat.add_mod]

/-- What an operation answers in a known phase: its effect there, landed. -/
theorem exec_of_phase {i : Instr} {s : State} {c : Cnt} {e : Effect} (hc : s.cnt = c)
    (he : effectOf i c s.hold = some e) :
    exec i s = .next { s with cnt := e.cnt, hold := e.hold, output := emitTo s.output e.emitted } :=
  exec_of_effect (hc ▸ he)

/-! `NULL` -/

/-- In every specified phase `NULL` writes back the registers it finds. -/
theorem nullEffect_of_phase {c : Cnt} (h : Hold) (hc : c ≠ 3#2) : nullEffect c h = some ⟨c, h, none⟩ := by
  obtain rfl | rfl | rfl := phase_cases hc
  · exact nullEffect_zero h
  · exact nullEffect_one h
  · exact nullEffect_two h

/-- Settles O1: the words of range 0 are `NULL`, whose effect writes back what stands in the registers. -/
theorem nullChangesNothingInAnyPhase : Obligations.NullChangesNothingInAnyPhase := by
  unfold Obligations.NullChangesNothingInAnyPhase
  refine ⟨fun w hw => ?word, fun s hs => exec_of_effect (i := .null) (nullEffect_of_phase s.hold hs)⟩
  case word =>
    have hrange : w.toNat / 256 = 0 := by omega
    obtain ⟨hnull, -⟩ := lastAndKeepSelectTheOperation.2 w
    exact ⟨hnull hrange, by simp [octets_eq_of_range, hrange]⟩

/-! `DATA` -/

theorem pad_notMem_bytes4_q4 (v : Group) : pad ∉ bytes4 (q4 v) := fun h =>
  absurd (mem_bytes4_q4 v pad h) (by decide)

/-- Settles O2: the words of range 1 are `DATA`, and each phase has its effect. -/
theorem dataStoresTheOctetOrEmitsTheGroup : Obligations.DataStoresTheOctetOrEmitsTheGroup := by
  unfold Obligations.DataStoresTheOctetOrEmitsTheGroup
  refine ⟨fun w hlow hhigh => ?word, fun d s hs => exec_of_phase (i := .data d) hs (dataEffect_zero d s.hold),
    fun d s hs => exec_of_phase (i := .data d) hs (dataEffect_one d s.hold),
    fun d s hs => exec_of_phase (i := .data d) hs (dataEffect_two d s.hold), pad_notMem_bytes4_q4⟩
  case word =>
    obtain ⟨-, hdata, -⟩ := lastAndKeepSelectTheOperation.2 w
    exact hdata (by omega)

/-! `END` -/

/-- Settles O3: the words of range 2 are `END`, and each phase has its effect. -/
theorem endEmitsTheRemainderAndEmpties : Obligations.EndEmitsTheRemainderAndEmpties := by
  unfold Obligations.EndEmitsTheRemainderAndEmpties
  refine ⟨fun w hlow hhigh => ?word, fun s hs => exec_of_phase (i := .endFrame) hs (endEffect_zero s.hold),
    fun s hs => exec_of_phase (i := .endFrame) hs (endEffect_one s.hold),
    fun s hs => exec_of_phase (i := .endFrame) hs (endEffect_two s.hold)⟩
  case word =>
    obtain ⟨-, -, hend, -⟩ := lastAndKeepSelectTheOperation.2 w
    exact hend (by omega)

/-! `DLAST` -/

theorem wordQL_injective {q q' : Quad} (h : wordQL q = wordQL q') : q = q' := by
  have hsym := congrArg OutWord.sym h
  simpa [wordQL] using hsym

theorem wordQ_ne_wordQL (q q' : Quad) : wordQ q ≠ wordQL q' := fun h => by
  have hlast := congrArg OutWord.last h
  simp at hlast

theorem pad_mem_bytes4_q1 (a : Octet) : pad ∈ bytes4 (q1 a) := by simp [bytes4_q1]
theorem pad_mem_bytes4_q2 (a b : Octet) : pad ∈ bytes4 (q2 a b) := by simp [bytes4_q2]

/-- The three ways to a last quad with symbols: a remainder of one octet, a remainder of two, and `DLAST` in phase 2. -/
theorem effect_wordQL_cases {i : Instr} {c : Cnt} {h : Hold} {e : Effect} {q : Quad} (he : effectOf i c h = some e)
    (hq : e.emitted = some (wordQL q)) :
    (∃ a, q = q1 a) ∨ (∃ a b, q = q2 a b) ∨ (∃ d, i = .dlast d) ∧ c = 2#2 := by
  have hquad {q' : Quad} (hq' : (Effect.emptied (wordQL q')).emitted = some (wordQL q)) : q = q' :=
    (wordQL_injective (Option.some.inj hq')).symm
  rcases effect_cases he with ⟨-, -, rfl⟩ | ⟨_, -, -, rfl⟩ | ⟨_, -, -, rfl⟩ | ⟨_, -, -, rfl⟩ | ⟨-, -, rfl⟩ |
    ⟨-, -, rfl⟩ | ⟨-, -, rfl⟩ | ⟨_, -, -, rfl⟩ | ⟨_, -, -, rfl⟩ | ⟨d, hi, hc, rfl⟩
  · cases hq
  · cases hq
  · cases hq
  · exact absurd (Option.some.inj hq) (wordQ_ne_wordQL _ q)
  · exact absurd (Option.some.inj hq).symm (wordQL_ne_wordEL q)
  · exact .inl ⟨_, hquad hq⟩
  · exact .inr (.inl ⟨_, _, hquad hq⟩)
  · exact .inl ⟨_, hquad hq⟩
  · exact .inr (.inl ⟨_, _, hquad hq⟩)
  · exact .inr (.inr ⟨⟨d, hi⟩, hc⟩)

/-- Settles O4: the words of range 3 are `DLAST`, each phase has its effect, and a remainder's quad holds a pad. -/
theorem dlastEncodesTheLastOctetAndEmpties : Obligations.DlastEncodesTheLastOctetAndEmpties := by
  unfold Obligations.DlastEncodesTheLastOctetAndEmpties
  refine ⟨fun w hlow => ?word, fun d s hs => exec_of_phase (i := .dlast d) hs (dlastEffect_zero d s.hold),
    fun d s hs => exec_of_phase (i := .dlast d) hs (dlastEffect_one d s.hold),
    fun d s hs => exec_of_phase (i := .dlast d) hs (dlastEffect_two d s.hold), ?noPad⟩
  case word =>
    have hrange : w.toNat / 256 = 3 := by omega
    obtain ⟨-, -, -, hdlast⟩ := lastAndKeepSelectTheOperation.2 w
    exact ⟨hdlast hrange, by simp [octets_eq_of_range, hrange]⟩
  case noPad =>
    intro i s t q hexec hout hpad
    obtain ⟨e, he, hq⟩ := exec_emitted_of_append hexec hout
    obtain ⟨a, rfl⟩ | ⟨a, b, rfl⟩ | hphaseTwo := effect_wordQL_cases he hq
    · exact absurd (pad_mem_bytes4_q1 a) hpad
    · exact absurd (pad_mem_bytes4_q2 a b) hpad
    · exact hphaseTwo

end Sys2Proof.Proofs

/-! The reference decoder (42_reference_decoder.md R84 to R86): what each kind of quad decodes to, said once as an `↔`.
Read from right to left it gives the round trip, from left to right the codes an accepted text can hold. -/

namespace Sys2Proof.Proofs

open Sys2Proof.Machine Sys2Proof.Laws

/-! The length of a text (42_reference_decoder.md R84) -/

theorem refDecode_of_quads {t : List Sym} (h : t.length % 4 = 0) : refDecode t = decodeQuads t := if_pos h
theorem refDecode_of_not_quads {t : List Sym} (h : t.length % 4 ≠ 0) : refDecode t = .error .malformed := if_neg h

/-! The quads of a text (42_reference_decoder.md R85) -/

/-- A quad with no pad is accepted exactly when its four codes are symbols. -/
theorem decodeFullQuad_eq_ok_iff {c₀ c₁ c₂ c₃ : Sym} {g : List Octet} :
    decodeFullQuad c₀ c₁ c₂ c₃ = .ok g ↔
      ∃ i₀ i₁ i₂ i₃, symCode i₀ = c₀ ∧ symCode i₁ = c₁ ∧ symCode i₂ = c₂ ∧ symCode i₃ = c₃ ∧
        groupOctets i₀ i₁ i₂ i₃ = g := by
  constructor
  · intro h
    unfold decodeFullQuad at h
    split at h
    · next i₀ i₁ i₂ i₃ h₀ h₁ h₂ h₃ =>
      exact ⟨i₀, i₁, i₂, i₃, symCode_of_symIndex h₀, symCode_of_symIndex h₁, symCode_of_symIndex h₂,
        symCode_of_symIndex h₃, Except.ok.inj h⟩
    · cases h
  · rintro ⟨i₀, i₁, i₂, i₃, rfl, rfl, rfl, rfl, rfl⟩
    simp [decodeFullQuad]

/-- The last quad is accepted exactly when it is a full one, or ends in one pad or two and its unused bits are zero. -/
theorem decodeLastQuad_eq_ok_iff {c₀ c₁ c₂ c₃ : Sym} {g : List Octet} :
    decodeLastQuad c₀ c₁ c₂ c₃ = .ok g ↔
      decodeFullQuad c₀ c₁ c₂ c₃ = .ok g ∨
      (∃ i₀ i₁ i₂, symCode i₀ = c₀ ∧ symCode i₁ = c₁ ∧ symCode i₂ = c₂ ∧ c₃ = pad ∧ i₂.extractLsb' 0 2 = 0#2 ∧
        [i₀ ++ i₁.extractLsb' 4 2, i₁.extractLsb' 0 4 ++ i₂.extractLsb' 2 4] = g) ∨
      ∃ i₀ i₁, symCode i₀ = c₀ ∧ symCode i₁ = c₁ ∧ c₂ = pad ∧ c₃ = pad ∧ i₁.extractLsb' 0 4 = 0#4 ∧
        [i₀ ++ i₁.extractLsb' 4 2] = g := by
  constructor
  · intro h
    unfold decodeLastQuad at h
    split at h
    · next i₀ i₁ h₀ h₁ =>
      split_ifs at h with hc₂ hc₃ hzero hc₃
      · exact .inr (.inr ⟨i₀, i₁, symCode_of_symIndex h₀, symCode_of_symIndex h₁, hc₂, hc₃, hzero, Except.ok.inj h⟩)
      · split at h
        · next i₂ h₂ =>
          split_ifs at h with hzero
          exact .inr (.inl ⟨i₀, i₁, i₂, symCode_of_symIndex h₀, symCode_of_symIndex h₁, symCode_of_symIndex h₂, hc₃,
            hzero, Except.ok.inj h⟩)
        · cases h
      · exact .inl h
    · cases h
  · rintro (h | ⟨i₀, i₁, i₂, rfl, rfl, rfl, rfl, hzero, rfl⟩ | ⟨i₀, i₁, rfl, rfl, rfl, rfl, hzero, rfl⟩)
    · obtain ⟨i₀, i₁, i₂, i₃, rfl, rfl, rfl, rfl, -⟩ := decodeFullQuad_eq_ok_iff.mp h
      simpa [decodeLastQuad, symCode_ne_pad] using h
    · simp [decodeLastQuad, symCode_ne_pad, hzero]
    · simp [decodeLastQuad, hzero]

/-- A full quad before a text that decodes puts its octets in front; it may be the last quad, where the text is empty. -/
theorem decodeQuads_cons_full {c₀ c₁ c₂ c₃ : Sym} {g bs : List Octet} {rest : List Sym}
    (hquad : decodeFullQuad c₀ c₁ c₂ c₃ = .ok g) (hrest : decodeQuads rest = .ok bs) :
    decodeQuads (c₀ :: c₁ :: c₂ :: c₃ :: rest) = .ok (g ++ bs) := by
  cases rest with
  | nil =>
    obtain rfl : [] = bs := Except.ok.inj hrest
    rw [List.append_nil]
    exact decodeLastQuad_eq_ok_iff.mpr (.inl hquad)
  | cons c rest => simp [decodeQuads, hquad, hrest]

/-! The round trip (42_reference_decoder.md R86) -/

theorem decodeQuads_bytes4_q4_append (a b c : Octet) {t : List Sym} {bs : List Octet} (h : decodeQuads t = .ok bs) :
    decodeQuads (bytes4 (q4 (a ++ b ++ c)) ++ t) = .ok (a :: b :: c :: bs) := by
  rw [bytes4_q4]
  exact decodeQuads_cons_full
    (decodeFullQuad_eq_ok_iff.mpr ⟨_, _, _, _, rfl, rfl, rfl, rfl, groupOctets_of_octets a b c⟩) h

/-- The first index of a quad and the two high bits of the second are the first octet, whatever fills the second
index. -/
theorem octet_of_indices (a : Octet) (x : BitVec 4) :
    a.extractLsb' 2 6 ++ (a.extractLsb' 0 2 ++ x).extractLsb' 4 2 = a := by
  rw [slice_of_high _ x 4 2 (by omega)]
  simp [slices_join a 0 2 6]

theorem decodeQuads_bytes4_q1 (a : Octet) : decodeQuads (bytes4 (q1 a)) = .ok [a] := by
  rw [bytes4_q1_octets]
  refine decodeLastQuad_eq_ok_iff.mpr (.inr (.inr ⟨_, _, rfl, rfl, rfl, rfl, ?unused, ?octet⟩))
  case unused => exact slice_of_low _ 0b0000#4 0 4 (by omega)
  case octet => rw [octet_of_indices]

theorem decodeQuads_bytes4_q2 (a b : Octet) : decodeQuads (bytes4 (q2 a b)) = .ok [a, b] := by
  rw [bytes4_q2_octets]
  refine decodeLastQuad_eq_ok_iff.mpr (.inr (.inl ⟨_, _, _, rfl, rfl, rfl, rfl, ?unused, ?octets⟩))
  case unused => exact slice_of_low _ 0b00#2 0 2 (by omega)
  case octets =>
    have hlow : (a.extractLsb' 0 2 ++ b.extractLsb' 4 4).extractLsb' 0 4 = b.extractLsb' 4 4 :=
      (slice_of_low _ _ 0 4 (by omega)).trans BitVec.extractLsb'_eq_self
    have hhigh : (b.extractLsb' 0 4 ++ 0b00#2).extractLsb' 2 4 = b.extractLsb' 0 4 :=
      (slice_of_high _ 0b00#2 2 4 (by omega)).trans BitVec.extractLsb'_eq_self
    rw [octet_of_indices, hlow, hhigh, slices_join b 0 4 4, BitVec.extractLsb'_eq_self]

/-- The quads of an encoded text decode to its octets. -/
theorem decodeQuads_refEncode : ∀ bs : List Octet, decodeQuads (refEncode bs) = .ok bs
  | [] => rfl
  | [a] => decodeQuads_bytes4_q1 a
  | [a, b] => decodeQuads_bytes4_q2 a b
  | a :: b :: c :: bs => by
    rw [refEncode_group]
    exact decodeQuads_bytes4_q4_append a b c (decodeQuads_refEncode bs)

theorem refDecode_refEncode (bs : List Octet) : refDecode (refEncode bs) = .ok bs := by
  have hlength : (refEncode bs).length % 4 = 0 := by
    rw [refEncode_length]
    exact Nat.mul_mod_right ..
  rw [refDecode_of_quads hlength, decodeQuads_refEncode]

/-- Settles O29: each quad of an encoded text decodes to its octets, and the texts of a run's output frames are the
encodings of its input frames (O33). -/
theorem decodingTheBlocksTextGivesTheFrameBack : Obligations.DecodingTheBlocksTextGivesTheFrameBack := by
  unfold Obligations.DecodingTheBlocksTextGivesTheFrameBack
  refine ⟨refDecode_refEncode, fun ws s hs => ?_⟩
  obtain ⟨t, outs, hrun, hout, hframes, -⟩ := everyOutputFrameIsTheEncodingOfItsInputFrame ws s hs
  refine ⟨t, outs, hrun, hout, ?_⟩
  rw [hframes, List.map_map]
  exact List.map_congr_left fun bs _ => refDecode_refEncode bs

/-! The rejected texts (42_reference_decoder.md R84) -/

/-- An accepted last quad, a full one among them, holds symbols and pads only. -/
theorem mem_of_decodeLastQuad_eq_ok {c₀ c₁ c₂ c₃ : Sym} {g : List Octet} (h : decodeLastQuad c₀ c₁ c₂ c₃ = .ok g) :
    ∀ c ∈ [c₀, c₁, c₂, c₃], (∃ i, symCode i = c) ∨ c = pad := by
  obtain hfull | ⟨i₀, i₁, i₂, rfl, rfl, rfl, rfl, -, -⟩ | ⟨i₀, i₁, rfl, rfl, rfl, rfl, -, -⟩ :=
    decodeLastQuad_eq_ok_iff.mp h
  · obtain ⟨i₀, i₁, i₂, i₃, rfl, rfl, rfl, rfl, -⟩ := decodeFullQuad_eq_ok_iff.mp hfull
    simp
  · simp
  · simp

theorem mem_of_decodeQuads_eq_ok {t : List Sym} {bs : List Octet} (h : decodeQuads t = .ok bs) :
    ∀ c ∈ t, (∃ i, symCode i = c) ∨ c = pad := by
  fun_induction decodeQuads t generalizing bs with
  | case1 => simp
  | case2 c₀ c₁ c₂ c₃ => exact mem_of_decodeLastQuad_eq_ok h
  | case3 c₀ c₁ c₂ c₃ rest _ a b hrest hfull ih =>
    have hquad := mem_of_decodeLastQuad_eq_ok (decodeLastQuad_eq_ok_iff.mpr (.inl hfull))
    exact List.forall_mem_append (l₁ := [c₀, c₁, c₂, c₃]).mpr ⟨hquad, ih hrest⟩
  | case4 => cases h
  | case5 => cases h

/-- Settles O28: the length is what `decode` looks at first, and an accepted text of that length is made of quads of
symbols and pads. -/
theorem decodeRejectsWrongLengthAndForeignCodes : Obligations.DecodeRejectsWrongLengthAndForeignCodes := by
  unfold Obligations.DecodeRejectsWrongLengthAndForeignCodes
  refine ⟨fun t hlength => refDecode_of_not_quads hlength, fun t c hc hsym hpad => ?foreign, rfl⟩
  case foreign =>
    by_cases hlength : t.length % 4 = 0
    · rw [refDecode_of_quads hlength]
      cases h : decodeQuads t with
      | error e => rfl
      | ok bs =>
        obtain ⟨i, hi⟩ | hc := mem_of_decodeQuads_eq_ok h c hc
        · exact absurd hi (hsym i)
        · exact absurd hc hpad
    · exact refDecode_of_not_quads hlength

end Sys2Proof.Proofs

/-! Reset (70_reset_and_hazards.md section 1): what a cycle with `rst = 1` does at the clock edge and at the pins, whatever
the state and the other pins. -/

namespace Sys2Proof.Proofs

open Sys2Proof.Machine Sys2Proof.Laws

/-- 70_reset_and_hazards.md R101. -/
theorem cycle_of_rst {p : InPins} (hr : p.rst = true) (s : State) : cycle p s = .next s.resetStep := if_pos hr

/-- 70_reset_and_hazards.md R102. -/
@[simp] theorem resetStep_resetStep (s : State) : s.resetStep.resetStep = s.resetStep := rfl

/-- 70_reset_and_hazards.md R103. -/
theorem outPins_of_rst {p : InPins} (hr : p.rst = true) (s : State) :
    outPins p s = .next { inReady := false, outValid := false, payload := none } := by
  simp [outPins, InPins.inReady, hr]

/-- An edge with `rst = 1` that answers a next state answers the reset step. -/
theorem eq_resetStep_of_cycle {p : InPins} {s t : State} (hr : p.rst = true) (h : cycle p s = .next t) :
    t = s.resetStep := by
  rw [cycle_of_rst hr] at h
  exact (Host.Outcome.next.inj h).symm

/-- Settles O47: the edge is the reset step in every state, and the reset step is idempotent. -/
theorem aResetEdgeEmptiesTheRegisters : Obligations.AResetEdgeEmptiesTheRegisters := by
  unfold Obligations.AResetEdgeEmptiesTheRegisters
  intro p p' s hr hr'
  refine ⟨cycle_of_rst hr s, fun t ht => ?again⟩
  case again =>
    obtain rfl := eq_resetStep_of_cycle hr ht
    rw [cycle_of_rst hr', resetStep_resetStep]

/-- Settles O48: `rst` closes both ports in every state, and the next cycle starts from the reset step's state. -/
theorem nothingCrossesDuringReset : Obligations.NothingCrossesDuringReset := by
  unfold Obligations.NothingCrossesDuringReset
  refine ⟨fun p s hr => ⟨_, outPins_of_rst hr s, rfl, rfl⟩, fun p p' s t hr _ ht => ?next⟩
  case next =>
    obtain rfl := eq_resetStep_of_cycle hr ht
    exact ⟨rfl, rfl⟩

end Sys2Proof.Proofs

/-! Decoding and encoding (30_encoding.md sections 1 and 5), and the textual form of a program (R49). -/

namespace Sys2Proof.Proofs

open Sys2Proof.Machine Sys2Proof.Laws

/-! The words of the operations -/

@[simp] theorem decode_encode (i : Instr) : decode (encode i) = i := by
  cases i <;> simp [encode]

/-- A decoded word is encoded with its ignored field cleared. -/
theorem encode_decode (w : InWord) : encode (decode w) = w.canonical := by
  obtain ⟨l, k, d, rfl⟩ := exists_inWord w
  cases l <;> cases k <;> simp [encode]

/-- The mask `0x300` clears the data field. -/
theorem inWord_and_mask (l k : Bool) (d : Octet) : inWord l k d &&& 0x300#10 = inWord l k 0x00#8 := by
  revert l k d; decide

theorem canonical_eq_mask (w : InWord) : w.canonical = if w.keep then w else w &&& 0x300#10 := by
  obtain ⟨l, k, d, rfl⟩ := exists_inWord w
  cases k <;> simp [inWord_and_mask]

/-- Clearing the ignored field does not change the operation. -/
theorem decode_canonical (w : InWord) : decode w.canonical = decode w := by
  rw [← encode_decode, decode_encode]

/-- Settles O13: `decode` inverts `encode`, so the decoded operation and the canonical word determine each other. -/
theorem decodeAndEncodeAgree : Obligations.DecodeAndEncodeAgree := by
  unfold Obligations.DecodeAndEncodeAgree
  refine ⟨fun i _ => decode_encode i, fun w => (encode_decode w).trans (canonical_eq_mask w), fun w w' => ⟨?_, ?_⟩⟩
  · intro h
    rw [← encode_decode, h, encode_decode]
  · intro h
    rw [← decode_canonical, h, decode_canonical]

/-- Settles O14: each of the thirteen words is a literal of the table. -/
theorem theTabledWordsReadAsTabled : Obligations.TheTabledWordsReadAsTabled := by
  unfold Obligations.TheTabledWordsReadAsTabled
  decide

/-! The textual form of a program -/

theorem hexValue_hexDigit : ∀ n < 16, hexValue (hexDigit n) = some n := by decide

/-- Two hexadecimal digits give the octet back. -/
theorem readOctet_printOctet (d : Octet) : readOctet (printOctet d) = some (d, []) := by
  have hhigh := hexValue_hexDigit (d.toNat / 16) (by have := d.isLt; omega)
  have hlow := hexValue_hexDigit (d.toNat % 16) (by omega)
  simp [readOctet, printOctet, hhigh, hlow, Nat.div_add_mod]

theorem readLastOctet_printOctet (d : Octet) : readLastOctet (printOctet d) = some d := by
  have hskip : skipSpaces (printOctet d) = printOctet d := by simp [printOctet, skipSpaces]
  simp [readLastOctet, hskip, readOctet_printOctet, lineDone, skipSpaces]

theorem readInstr_printInstr (i : Instr) : readInstr (printInstr i) = some i := by
  cases i with
  | null => rfl
  | endFrame => rfl
  | data d => simp [readInstr, printInstr, afterWord, readLastOctet_printOctet]
  | dlast d => simp [readInstr, printInstr, afterWord, readLastOctet_printOctet]

/-- A printed operation begins with a letter: it is neither empty nor a comment. -/
theorem lineDone_printInstr (i : Instr) : lineDone (printInstr i) = false := by
  cases i <;> simp [lineDone, printInstr, skipSpaces]

theorem skipSpaces_printInstr (i : Instr) : skipSpaces (printInstr i) = printInstr i := by
  cases i <;> simp [printInstr, skipSpaces]

theorem assembleLine_printInstr (i : Instr) : assembleLine (printInstr i) = some [i] := by
  simp [assembleLine, skipSpaces_printInstr, lineDone_printInstr, readInstr_printInstr]

/-- Settles O18: each printed line is read back as its one operation. -/
theorem printedProgramsAssembleToTheirWords : Obligations.PrintedProgramsAssembleToTheirWords := by
  unfold Obligations.PrintedProgramsAssembleToTheirWords
  intro ops
  induction ops with
  | nil => rfl
  | cons i ops ih => simp [assemble, assembleLine_printInstr, ih]

end Sys2Proof.Proofs

/-! The text of `encode` cut at a group boundary (40_reference_codec.md sections 1 and 3), and what the reference
decoder accepts (42_reference_decoder.md). -/

namespace Sys2Proof.Proofs

open Sys2Proof.Machine Sys2Proof.Laws

/-! The groups of an input -/

/-- The first `g` groups fill the first `4g` symbols of the text. -/
theorem refEncode_drop_groups {bs : List Octet} {g : Nat} (hg : 3 * g ≤ bs.length) :
    (refEncode bs).drop (4 * g) = refEncode (bs.drop (3 * g)) := by
  have hfull : (bs.take (3 * g)).length = 3 * g := List.length_take_of_le hg
  have hsplit := refEncode_append_of_full (bs.take (3 * g)) (bs.drop (3 * g)) (by omega)
  have htext : (refEncode (bs.take (3 * g))).length = 4 * g := by
    rw [refEncode_length, hfull]
    omega
  rw [List.take_append_drop] at hsplit
  rw [hsplit, List.drop_left' htext]

/-- From a place with three octets after it, a list is those three and the rest. -/
theorem drop_eq_three_cons {bs : List Octet} {n : Nat} (h : n + 2 < bs.length) :
    bs.drop n = bs.getD n 0#8 :: bs.getD (n + 1) 0#8 :: bs.getD (n + 2) 0#8 :: bs.drop (n + 3) := by
  rw [List.drop_eq_getElem_cons (by omega), List.drop_eq_getElem_cons (i := n + 1) (by omega),
    List.drop_eq_getElem_cons (i := n + 2) h, List.getD_eq_getElem, List.getD_eq_getElem, List.getD_eq_getElem]

/-- Settles O21: the text after the first `g` groups is that of the octets after them. -/
theorem groupsAreTakenFromTheFront : Obligations.GroupsAreTakenFromTheFront := by
  unfold Obligations.GroupsAreTakenFromTheFront
  refine fun bs => ⟨fun g hg => ?_, refEncode_drop_groups (by omega)⟩
  rw [refEncode_drop_groups (by omega), drop_eq_three_cons hg, refEncode_group]
  exact List.take_left' rfl

/-- An input is full groups and fewer than three octets more. -/
theorem exists_full_and_remainder (bs : List Octet) :
    ∃ g r, bs = g ++ r ∧ g.length % 3 = 0 ∧ r.length = bs.length % 3 := by
  refine ⟨bs.take (3 * (bs.length / 3)), bs.drop (3 * (bs.length / 3)), (List.take_append_drop _ bs).symm, ?_, ?_⟩
  · rw [List.length_take]
    omega
  · rw [List.length_drop]
    omega

/-! The pads (40_reference_codec.md section 3) -/

theorem pad_notMem_refEncode_of_full : ∀ {bs : List Octet}, bs.length % 3 = 0 → pad ∉ refEncode bs
  | [], _ => List.not_mem_nil
  | [_], h | [_, _], h => by simp at h
  | a :: b :: c :: bs, h => by
    have hbs : bs.length % 3 = 0 := by simp only [List.length_cons] at h; omega
    rw [refEncode_group, List.mem_append, not_or]
    exact ⟨pad_notMem_bytes4_q4 _, pad_notMem_refEncode_of_full hbs⟩

theorem pad_ne_symCode (i : Index) : pad ≠ symCode i := (symCode_ne_pad i).symm

/-- A remainder's quad is symbols, then one pad for each octet that the group lacks. -/
theorem refEncode_remainder_pads : ∀ {r : List Octet}, r.length < 3 →
    ∃ body, refEncode r = body ++ List.replicate ((3 - r.length) % 3) pad ∧ pad ∉ body
  | [], _ => ⟨[], rfl, List.not_mem_nil⟩
  | [a], _ => ⟨[_, _], bytes4_q1_octets a, by simp [pad_ne_symCode]⟩
  | [a, b], _ => ⟨[_, _, _], bytes4_q2_octets a b, by simp [pad_ne_symCode]⟩
  | _ :: _ :: _ :: r, h => by simp only [List.length_cons] at h; omega

/-- A text is a body without pads, then one pad for each octet that the last group lacks. -/
theorem refEncode_pads (bs : List Octet) :
    ∃ body, refEncode bs = body ++ List.replicate ((3 - bs.length % 3) % 3) pad ∧ pad ∉ body := by
  obtain ⟨g, r, rfl, hg, hr⟩ := exists_full_and_remainder bs
  obtain ⟨body, hbody, hpad⟩ := refEncode_remainder_pads (r := r) (by omega)
  refine ⟨refEncode g ++ body, ?_, ?_⟩
  · rw [refEncode_append_of_full g r hg, hbody, ← hr, List.append_assoc]
  · rw [List.mem_append, not_or]
    exact ⟨pad_notMem_refEncode_of_full hg, hpad⟩

/-- Settles O23: the number of pads is that of the octets the last group lacks. -/
theorem padsStandAtTheEndOnly : Obligations.PadsStandAtTheEndOnly := by
  unfold Obligations.PadsStandAtTheEndOnly
  intro bs
  obtain ⟨body, htext, hbody⟩ := refEncode_pads bs
  refine ⟨pad_notMem_refEncode_of_full, fun h => ⟨body, ?_, hbody⟩, fun h => ⟨body, ?_, hbody⟩⟩ <;>
    rw [htext, h] <;> rfl

/-- Outside a group boundary the text ends in a pad. -/
theorem pad_mem_refEncode {bs : List Octet} (h : bs.length % 3 ≠ 0) : pad ∈ refEncode bs := by
  obtain ⟨body, htext, -⟩ := refEncode_pads bs
  rw [htext]
  exact List.mem_append_right _ (List.mem_replicate.mpr ⟨by omega, rfl⟩)

/-- Settles O25: a pad of the first text would stand four symbols or more before the end, where no text has one. -/
theorem encodeComposesAtGroupBoundaries : Obligations.EncodeComposesAtGroupBoundaries := by
  unfold Obligations.EncodeComposesAtGroupBoundaries
  refine ⟨refEncode_append_of_full, fun xs ys hxs hys htexts => ?_⟩
  obtain ⟨body, hpads, hbody⟩ := refEncode_pads (xs ++ ys)
  have hsplit : refEncode xs ++ refEncode ys = body ++ List.replicate _ pad := htexts.symm.trans hpads
  have hprefix : refEncode xs <+: body := by
    refine List.prefix_of_prefix_length_le (List.prefix_append _ _) ⟨_, hsplit.symm⟩ ?_
    have hlength := congrArg List.length hsplit
    have hnonempty := List.length_pos_iff.mpr hys
    rw [List.length_append, List.length_append, List.length_replicate, refEncode_length ys] at hlength
    omega
  exact hbody (hprefix.subset (pad_mem_refEncode hxs))

/-! The reference decoder -/

/-- Settles O26: `decode` gives the input back. -/
theorem encodeIsInjective : Obligations.EncodeIsInjective := by
  unfold Obligations.EncodeIsInjective
  intro xs ys h
  have hdecoded := congrArg refDecode h
  rw [refDecode_refEncode, refDecode_refEncode] at hdecoded
  exact Except.ok.inj hdecoded

/-- Settles O27: the two directions of the inverse are lemmas of the alphabet; the codes without index are
finitely many. -/
theorem theInverseSymbolMapInvertsS : Obligations.TheInverseSymbolMapInvertsS := by
  unfold Obligations.TheInverseSymbolMapInvertsS
  refine ⟨fun c i => ⟨symCode_of_symIndex, ?_⟩, by decide, by decide⟩
  rintro rfl
  exact symIndex_symCode i

/-! The quads the decoder accepts are those of `encode` -/

theorem group_of_octets (v : Group) : (v.extractLsb' 16 8 ++ v.extractLsb' 8 8 ++ v.extractLsb' 0 8 : Group) = v :=
  (congrArg (· ++ v.extractLsb' 0 8) (slices_join v 8 8 8)).trans BitVec.extractLsb'_append_extractLsb'

/-- The octets of four indices are encoded by the symbols of those indices. -/
theorem refEncode_groupOctets (i₀ i₁ i₂ i₃ : Index) (bs : List Octet) :
    refEncode (groupOctets i₀ i₁ i₂ i₃ ++ bs) =
      symCode i₀ :: symCode i₁ :: symCode i₂ :: symCode i₃ :: refEncode bs := by
  have h₀ : (i₀ ++ i₁ ++ i₂ ++ i₃ : Group).extractLsb' 18 6 = i₀ :=
    (slice_of_high _ i₃ 18 6 (by omega)).trans ((slice_of_high _ i₂ 12 6 (by omega)).trans
      BitVec.extractLsb'_append_eq_left)
  have h₁ : (i₀ ++ i₁ ++ i₂ ++ i₃ : Group).extractLsb' 12 6 = i₁ :=
    (slice_of_high _ i₃ 12 6 (by omega)).trans ((slice_of_high _ i₂ 6 6 (by omega)).trans
      BitVec.extractLsb'_append_eq_right)
  have h₂ : (i₀ ++ i₁ ++ i₂ ++ i₃ : Group).extractLsb' 6 6 = i₂ :=
    (slice_of_high _ i₃ 6 6 (by omega)).trans BitVec.extractLsb'_append_eq_right
  have h₃ : (i₀ ++ i₁ ++ i₂ ++ i₃ : Group).extractLsb' 0 6 = i₃ := BitVec.extractLsb'_append_eq_right
  simp only [groupOctets, List.cons_append, List.nil_append, refEncode_group, group_of_octets, bytes4_q4, h₀, h₁, h₂,
    h₃]

/-- A quad's first octet is its first index and the two high bits of the second. -/
theorem octet_slices (i : Index) (x : BitVec 2) :
    (i ++ x : Octet).extractLsb' 2 6 = i ∧ (i ++ x : Octet).extractLsb' 0 2 = x :=
  ⟨BitVec.extractLsb'_append_eq_left, BitVec.extractLsb'_append_eq_right⟩

/-- A remainder of one octet is encoded by the two indices it comes from, if the second has no other bits. -/
theorem refEncode_of_two_indices {i₀ i₁ : Index} (h : i₁.extractLsb' 0 4 = 0#4) :
    refEncode [i₀ ++ i₁.extractLsb' 4 2] = [symCode i₀, symCode i₁, pad, pad] := by
  obtain ⟨hhigh, hlow⟩ := octet_slices i₀ (i₁.extractLsb' 4 2)
  have hindex : i₁.extractLsb' 4 2 ++ 0b0000#4 = i₁ := by
    rw [← h]
    exact BitVec.extractLsb'_append_extractLsb'
  rw [refEncode, bytes4_q1_octets, hhigh, hlow, hindex]

/-- A remainder of two octets is encoded by the three indices it comes from, if the third has no other bits. -/
theorem refEncode_of_three_indices {i₀ i₁ i₂ : Index} (h : i₂.extractLsb' 0 2 = 0#2) :
    refEncode [i₀ ++ i₁.extractLsb' 4 2, i₁.extractLsb' 0 4 ++ i₂.extractLsb' 2 4] =
      [symCode i₀, symCode i₁, symCode i₂, pad] := by
  obtain ⟨hhigh, hlow⟩ := octet_slices i₀ (i₁.extractLsb' 4 2)
  have hhigh' : (i₁.extractLsb' 0 4 ++ i₂.extractLsb' 2 4 : Octet).extractLsb' 4 4 = i₁.extractLsb' 0 4 :=
    BitVec.extractLsb'_append_eq_left
  have hlow' : (i₁.extractLsb' 0 4 ++ i₂.extractLsb' 2 4 : Octet).extractLsb' 0 4 = i₂.extractLsb' 2 4 :=
    BitVec.extractLsb'_append_eq_right
  have hindex₁ : i₁.extractLsb' 4 2 ++ i₁.extractLsb' 0 4 = i₁ := BitVec.extractLsb'_append_extractLsb'
  have hindex₂ : i₂.extractLsb' 2 4 ++ 0b00#2 = i₂ := by
    rw [← h]
    exact BitVec.extractLsb'_append_extractLsb'
  rw [refEncode, bytes4_q2_octets, hhigh, hlow, hhigh', hlow', hindex₁, hindex₂]

theorem eq_refEncode_of_decodeFullQuad {c₀ c₁ c₂ c₃ : Sym} {g : List Octet} (h : decodeFullQuad c₀ c₁ c₂ c₃ = .ok g)
    (bs : List Octet) : c₀ :: c₁ :: c₂ :: c₃ :: refEncode bs = refEncode (g ++ bs) := by
  obtain ⟨i₀, i₁, i₂, i₃, rfl, rfl, rfl, rfl, rfl⟩ := decodeFullQuad_eq_ok_iff.mp h
  exact (refEncode_groupOctets i₀ i₁ i₂ i₃ bs).symm

theorem eq_refEncode_of_decodeLastQuad {c₀ c₁ c₂ c₃ : Sym} {g : List Octet}
    (h : decodeLastQuad c₀ c₁ c₂ c₃ = .ok g) : [c₀, c₁, c₂, c₃] = refEncode g := by
  obtain hfull | ⟨i₀, i₁, i₂, rfl, rfl, rfl, rfl, hzero, rfl⟩ | ⟨i₀, i₁, rfl, rfl, rfl, rfl, hzero, rfl⟩ :=
    decodeLastQuad_eq_ok_iff.mp h
  · simpa [refEncode_nil] using eq_refEncode_of_decodeFullQuad hfull []
  · exact (refEncode_of_three_indices hzero).symm
  · exact (refEncode_of_two_indices hzero).symm

theorem eq_refEncode_of_decodeQuads {t : List Sym} {bs : List Octet} (h : decodeQuads t = .ok bs) :
    t = refEncode bs := by
  fun_induction decodeQuads t generalizing bs with
  | case1 =>
    obtain rfl : [] = bs := Except.ok.inj h
    rfl
  | case2 c₀ c₁ c₂ c₃ => exact eq_refEncode_of_decodeLastQuad h
  | case3 c₀ c₁ c₂ c₃ rest _ a b hrest hfull ih =>
    obtain rfl : a ++ b = bs := Except.ok.inj h
    rw [ih hrest, eq_refEncode_of_decodeFullQuad hfull]
  | case4 => cases h
  | case5 => cases h

/-- Settles O30: each quad the decoder accepts is the encoding of its octets, because the unused bits must be zero. -/
theorem decodeAcceptsExactlyEncodedTexts : Obligations.DecodeAcceptsExactlyEncodedTexts := by
  unfold Obligations.DecodeAcceptsExactlyEncodedTexts
  refine fun t bs => ⟨fun h => ?_, ?_⟩
  · by_cases hlength : t.length % 4 = 0
    · exact eq_refEncode_of_decodeQuads ((refDecode_of_quads hlength).symm.trans h)
    · rw [refDecode_of_not_quads hlength] at h
      cases h
  · rintro rfl
    exact refDecode_refEncode bs

end Sys2Proof.Proofs

/-! When operations complete and what they write and leave alone (41_stream_ops.md section 2), and the step that
performs the head word's operation (section 1). -/

namespace Sys2Proof.Proofs

open Sys2Proof.Machine Sys2Proof.Laws

/-! The text of a list of output words -/

@[simp] theorem textOf_nil : textOf [] = [] := rfl
@[simp] theorem textOf_cons (o : OutWord) (os : List OutWord) : textOf (o :: os) = wordText o ++ textOf os := rfl
@[simp] theorem textOf_append (os os' : List OutWord) : textOf (os ++ os') = textOf os ++ textOf os' :=
  List.flatMap_append

/-! Completion -/

/-- Settles O7: an operation's effect exists exactly outside phase 3, and where there is none the model refuses. -/
theorem onlyPhaseThreeIsRefused : Obligations.OnlyPhaseThreeIsRefused := by
  unfold Obligations.OnlyPhaseThreeIsRefused
  refine fun i s => ⟨⟨?specified, fun hs => ?completes⟩, fun hs => ?refused, fun r => nomatch r⟩
  case specified =>
    rintro ⟨t, ht⟩ hs
    obtain ⟨e, he, -⟩ := exec_next ht
    rw [hs, effect_three] at he
    cases he
  case completes =>
    obtain ⟨e, he⟩ := effect_exists i s.hold hs
    exact ⟨_, exec_of_effect he⟩
  case refused => rw [exec_eq_commit, hs, effect_three, commit_none]

/-! The frame of an operation -/

/-- The word an operation emits ends the output frame exactly when the operation ends the input frame. -/
theorem effect_emitted_last {i : Instr} {c : Cnt} {h : Hold} {e : Effect} {o : OutWord}
    (he : effectOf i c h = some e) (ho : e.emitted = some o) : o.last = (encode i).last := by
  rcases effect_cases he with ⟨_, _, rfl⟩ | ⟨_, _, _, rfl⟩ | ⟨_, _, _, rfl⟩ | ⟨_, rfl, _, rfl⟩ | ⟨rfl, _, rfl⟩ |
    ⟨rfl, _, rfl⟩ | ⟨rfl, _, rfl⟩ | ⟨_, rfl, _, rfl⟩ | ⟨_, rfl, _, rfl⟩ | ⟨_, rfl, _, rfl⟩ <;> simp at ho <;>
    simp [← ho, encode]

theorem encode_decode_last (w : InWord) : (encode (decode w)).last = w.last := by
  obtain ⟨l, k, d, rfl⟩ := exists_inWord w
  rw [encode_decode, inWord_canonical, inWord_last, inWord_last]

/-- The two control bits select `NULL` (30_encoding.md R40). -/
theorem decode_of_null_bits {w : InWord} (hl : w.last = false) (hk : w.keep = false) : decode w = .null := by
  simp [decode, hl, hk]

/-- A word with neither control bit set is accepted with no write, in every specified phase. -/
theorem accept_null {w : InWord} (hl : w.last = false) (hk : w.keep = false) {s : State} (hs : s.cnt ≠ 3#2) :
    accept w s = .next s := by
  rw [accept, decode_of_null_bits hl hk]
  exact nullChangesNothingInAnyPhase.2 s hs

/-- Settles O6: what is appended is the effect's word, which `emits` announces. -/
theorem anOperationAppendsAtMostOneWord : Obligations.AnOperationAppendsAtMostOneWord := by
  unfold Obligations.AnOperationAppendsAtMostOneWord
  intro w s hs
  obtain ⟨e, he⟩ := effect_exists (decode w) s.hold hs
  have hexec := exec_of_effect he
  have hemits : e.emitted.isSome = (w.getLsbD 9 || (w.getLsbD 8 && s.cnt == 2#2)) := effect_emits he
  refine ⟨_, hexec, rfl, ?appended, fun hl hk => ?null⟩
  case appended =>
    rw [← hemits]
    cases ho : e.emitted with
    | none => rfl
    | some o => exact ⟨o, rfl, (effect_emitted_last he ho).trans (encode_decode_last w)⟩
  case null =>
    have hnull := Host.Outcome.next.inj (hexec.symm.trans (accept_null hl hk hs))
    exact ⟨congrArg State.cnt hnull, congrArg State.hold hnull⟩

/-- Settles O5: phase by phase, `END` finds in the registers the octets that `DLAST` joins to its own, and in phase 2
none. -/
theorem dlastIsDataThenEndMerged : Obligations.DlastIsDataThenEndMerged := by
  unfold Obligations.DlastIsDataThenEndMerged
  intro d s hs
  obtain hc | hc | hc := phase_cases hs
  · refine ⟨_, _, _, exec_of_phase (i := .data d) hc (dataEffect_zero d s.hold),
      exec_of_phase (i := .endFrame) rfl (endEffect_one _),
      exec_of_phase (i := .dlast d) hc (dlastEffect_zero d s.hold), rfl, rfl, rfl, rfl, ?_⟩
    simp [hc]
  · refine ⟨_, _, _, exec_of_phase (i := .data d) hc (dataEffect_one d s.hold),
      exec_of_phase (i := .endFrame) rfl (endEffect_two _),
      exec_of_phase (i := .dlast d) hc (dlastEffect_one d s.hold), rfl, rfl, rfl, rfl, ?_⟩
    simp [hc]
  · refine ⟨_, _, _, exec_of_phase (i := .data d) hc (dataEffect_two d s.hold),
      exec_of_phase (i := .endFrame) rfl (endEffect_zero 0x0000#16),
      exec_of_phase (i := .dlast d) hc (dlastEffect_two d s.hold), rfl, rfl, rfl, rfl, ?_, fun h => absurd hc h,
      fun _ => ⟨q4 (groupOf s.hold d), ?_, rfl⟩⟩
    · simp
    · exact List.append_assoc _ _ _

/-! The step -/

theorem step_of_cons {s : State} {w : InWord} {ws : List InWord} (h : s.input = w :: ws) :
    step s = accept w { s with input := ws } := by
  rw [step, nextBeat_of_cons h]

theorem step_of_nil {s : State} (h : s.input = []) : step s = .next s := by
  rw [step, nextBeat_of_nil h]

/-- Settles O8: a step accepts the head word. -/
theorem stepRunsTheHeadWord : Obligations.StepRunsTheHeadWord := by
  unfold Obligations.StepRunsTheHeadWord
  exact fun s w ws h => step_of_cons h

/-- Settles O9: no word is accepted. -/
theorem stepHoldsTheStateWhenNothingIsOffered : Obligations.StepHoldsTheStateWhenNothingIsOffered := by
  unfold Obligations.StepHoldsTheStateWhenNothingIsOffered
  exact fun s h => step_of_nil h

/-- A number that decodes is an input word. -/
theorem decodeTableWord_eq_some {nbits n : Nat} {i : Instr} (h : decodeTableWord nbits n = some i) :
    ∃ w, readWord (n % 2 ^ nbits) = .ok w ∧ decode w = i := by
  unfold decodeTableWord decodeNumber at h
  cases hw : readWord (n % 2 ^ nbits) with
  | error r => simp [hw] at h
  | ok w => exact ⟨w, rfl, by simpa [hw] using h⟩

/-- Settles O10: the placed word is the head of the input stream. -/
theorem aPlacedWordRunsNext : Obligations.APlacedWordRunsNext := by
  unfold Obligations.APlacedWordRunsNext
  intro s nbits n i h
  obtain ⟨w, hw, rfl⟩ := decodeTableWord_eq_some h
  have hplaced : s.withFetchWord nbits n = s.offer w := by rw [State.withFetchWord, hw]
  rw [hplaced]
  exact step_of_cons (offer_input w s)

/-- Settles O11: a step accepts the head word, and accepting depends on the registers and the word alone. -/
theorem stepNeverLooksAhead : Obligations.StepNeverLooksAhead := by
  unfold Obligations.StepNeverLooksAhead
  intro s s' t w ws ws' hs hs' hcnt hhold hstep
  rw [step_of_cons hs] at hstep
  obtain ⟨outs, hout, -, haccept⟩ := accept_same_registers (s := { s with input := ws })
    (s' := { s' with input := ws' }) hcnt hhold hstep
  exact ⟨_, outs, (step_of_cons hs').trans haccept, rfl, rfl, hout, rfl, rfl⟩

end Sys2Proof.Proofs

/-! Runs (41_stream_ops.md section 4, 70_reset_and_hazards.md section 5): they are sequential, they see neither `NULL`
words nor ignored fields, and a word with `last = 1` leaves nothing behind. -/

namespace Sys2Proof.Proofs

open Sys2Proof.Machine Sys2Proof.Laws

/-! The streams of a run -/

theorem runWords_input {ws : List InWord} {s t : State} (h : runWords ws s = .next t) : t.input = s.input := by
  obtain ⟨-, -, hinput, -⟩ := runWords_same_registers ws (s' := s) rfl rfl h
  exact hinput

theorem runWords_output_prefix {ws : List InWord} {s t : State} (h : runWords ws s = .next t) :
    s.output <+: t.output := by
  obtain ⟨outs, hout, -, -⟩ := runWords_same_registers ws (s' := s) rfl rfl h
  exact ⟨outs, hout.symm⟩

/-- Settles O39: the second run starts where the first ended, and each run only appends. -/
theorem runsAreSequentialAndOutputOnlyGrows : Obligations.RunsAreSequentialAndOutputOnlyGrows := by
  unfold Obligations.RunsAreSequentialAndOutputOnlyGrows
  intro ws ws' s t u ht hu
  have hnext : runWords ws' t = .next u := by rwa [runWords_append, ht, andThen_next] at hu
  exact ⟨hnext, runWords_output_prefix ht, runWords_output_prefix hnext, runWords_input hu⟩

/-- What a word does is the same whatever the input stream holds, and leaves it. -/
theorem accept_with_input {w : InWord} {s t : State} (h : accept w s = .next t) (ws : List InWord) :
    accept w { s with input := ws } = .next { t with input := ws } := by
  obtain ⟨e, he, rfl⟩ := exec_next h
  exact exec_of_effect (s := { s with input := ws }) he

/-- As many steps as the stream has words are the fold over it. -/
theorem core_run_of_runWords (ws : List InWord) {s t : State} (hs : s.input = ws)
    (h : runWords ws { s with input := [] } = .next t) : Sys2Proof.core.run ws.length s = .next t := by
  induction ws generalizing s with
  | nil =>
    have hsame : { s with input := [] } = s := by rw [← hs]
    rw [hsame] at h
    exact h
  | cons w ws ih =>
    obtain ⟨u, hu, hrun⟩ := andThen_eq_next h
    have hinput : u.input = [] := runWords_input ((runWords_singleton w _).trans hu)
    have hstep : step s = .next { u with input := ws } := (step_of_cons hs).trans (accept_with_input hu ws)
    have hafter : { u with input := [] } = u := by rw [← hinput]
    rw [List.length_cons, core_run_succ _ hstep]
    exact ih rfl (by rwa [hafter])

/-- Settles O40: the fold completes in every specified phase, and the steps follow it word by word. -/
theorem theMachineRunsItsStreamAsTheFold : Obligations.TheMachineRunsItsStreamAsTheFold := by
  unfold Obligations.TheMachineRunsItsStreamAsTheFold
  intro s hs
  obtain ⟨t, ht, -⟩ := runWords_completes s.input (s := { s with input := [] }) hs
  exact ⟨t, ht, core_run_of_runWords s.input rfl ht, runWords_input ht⟩

/-! The end of a frame -/

/-- `END` and `DLAST` empty the registers in every phase (41_stream_ops.md R71, R72). -/
theorem effect_last_empties {i : Instr} {c : Cnt} {h : Hold} {e : Effect} (he : effectOf i c h = some e)
    (hi : (encode i).last = true) : e.cnt = 0#2 ∧ e.hold = 0x0000#16 := by
  rcases effect_cases he with ⟨rfl, _, rfl⟩ | ⟨_, rfl, _, rfl⟩ | ⟨_, rfl, _, rfl⟩ | ⟨_, rfl, _, rfl⟩ | ⟨_, _, rfl⟩ |
    ⟨_, _, rfl⟩ | ⟨_, _, rfl⟩ | ⟨_, _, _, rfl⟩ | ⟨_, _, _, rfl⟩ | ⟨_, _, _, rfl⟩
  case inl | inr.inl | inr.inr.inl | inr.inr.inr.inl => simp [encode] at hi
  all_goals exact ⟨rfl, rfl⟩

/-- Every run that ends with a word with `last = 1` ends in empty registers. -/
theorem emptyRegs_of_runWords_last {ws : List InWord} {w : InWord} (hw : w.last = true) {s t : State}
    (h : runWords (ws ++ [w]) s = .next t) : EmptyRegs t := by
  rw [runWords_append] at h
  obtain ⟨u, -, hlast⟩ := andThen_eq_next h
  rw [runWords_singleton] at hlast
  obtain ⟨e, he, rfl⟩ := exec_next hlast
  exact effect_last_empties he ((encode_decode_last w).trans hw)

/-- From empty registers any words emit what they emit from reset, and leave the registers as from there. -/
theorem runWords_as_from_reset (ws : List InWord) {t : State} (ht : EmptyRegs t) :
    ∃ u v, runWords ws t = .next u ∧ runWords ws State.reset = .next v ∧
      u.cnt = v.cnt ∧ u.hold = v.hold ∧ u.output = t.output ++ v.output := by
  obtain ⟨v, hv, -⟩ := runWords_completes ws (emptyRegs_specified (s := State.reset) ⟨rfl, rfl⟩)
  obtain ⟨hcnt, hhold⟩ := ht
  obtain ⟨outs, hout, -, hrun⟩ := runWords_same_registers ws (s' := t) hcnt.symm hhold.symm hv
  exact ⟨_, v, hrun, hv, rfl, rfl, by rw [hout, reset_output, List.nil_append]⟩

/-- Settles O37: the frame's last word empties the registers, and a run from there is one from reset. -/
theorem nothingIsCarriedAcrossAFrameEnd : Obligations.NothingIsCarriedAcrossAFrameEnd := by
  unfold Obligations.NothingIsCarriedAcrossAFrameEnd
  intro ws ws' w s t hw ht
  have hempty := emptyRegs_of_runWords_last hw ht
  obtain ⟨u, v, hu, hv, hregs⟩ := runWords_as_from_reset ws' hempty
  exact ⟨hempty, u, v, by rw [runWords_append, ht, andThen_next, hu], hv, hregs⟩

/-! What a run does not see -/

/-- A run depends on the operations its words decode to alone. -/
theorem runWords_congr {ws ws' : List InWord} (h : ws.map decode = ws'.map decode) (s : State) :
    runWords ws s = runWords ws' s := by
  induction ws generalizing ws' s with
  | nil => rw [List.map_eq_nil_iff.mp h.symm]
  | cons w ws ih =>
    obtain ⟨w', ws', rfl, hw, hws⟩ := List.map_eq_cons_iff.mp h.symm
    rw [runWords_cons, runWords_cons, accept, accept, hw, funext (ih hws.symm)]

/-- The words that are not `NULL`. -/
def nonNullWords (ws : List InWord) : List InWord := ws.filter (fun w => !isNull w)

theorem isNull_eq_true_iff {w : InWord} : isNull w = true ↔ w.last = false ∧ w.keep = false := by simp [isNull]

theorem nonNullWords_cons_null {w : InWord} (hl : w.last = false) (hk : w.keep = false) (ws : List InWord) :
    nonNullWords (w :: ws) = nonNullWords ws := by simp [nonNullWords, isNull, hl, hk]
theorem nonNullWords_cons_last {w : InWord} (hl : w.last = true) (ws : List InWord) :
    nonNullWords (w :: ws) = w :: nonNullWords ws := by simp [nonNullWords, isNull, hl]
theorem nonNullWords_cons_keep {w : InWord} (hk : w.keep = true) (ws : List InWord) :
    nonNullWords (w :: ws) = w :: nonNullWords ws := by simp [nonNullWords, isNull, hk]

/-- 41_stream_ops.md section 4 (a). -/
theorem runWords_nonNullWords (ws : List InWord) {s : State} (hs : s.cnt ≠ 3#2) :
    runWords (nonNullWords ws) s = runWords ws s := by
  induction ws generalizing s with
  | nil => rfl
  | cons w ws ih =>
    by_cases hnull : isNull w = true
    · obtain ⟨hl, hk⟩ := isNull_eq_true_iff.mp hnull
      rw [nonNullWords_cons_null hl hk, runWords_cons, accept_null hl hk hs, andThen_next, ih hs]
    · obtain ⟨t, ht, htc⟩ := accept_completes w hs
      have hcons : nonNullWords (w :: ws) = w :: nonNullWords ws := List.filter_cons_of_pos (by simpa using hnull)
      rw [hcons, runWords_cons, runWords_cons, ht, andThen_next, andThen_next, ih htc]

/-- Settles O35: `NULL` words are accepted with no effect, and an ignored field does not change the operation. -/
theorem nullsAndIgnoredDataAreInvisible : Obligations.NullsAndIgnoredDataAreInvisible := by
  unfold Obligations.NullsAndIgnoredDataAreInvisible
  refine fun ws s hs => ⟨?nulls, runWords_congr ?ignored s⟩
  case nulls =>
    rw [← runWords_nonNullWords ws hs, nonNullWords]
    congr 2
    funext w
    simp [isNull, InWord.last, InWord.keep]
  case ignored =>
    rw [List.map_map]
    refine List.map_congr_left fun w _ => ?_
    exact (congrArg decode (canonical_eq_mask w)).symm.trans (decode_canonical w)

/-! The frames determine the run -/

/-- The operations of a frame, as those of a pseudo-operation (30_encoding.md R50): `FRAMEL` if it was ended by `DLAST`,
`FRAME` if by `END`. -/
def formOps (form : List Octet × Bool) : List Instr :=
  ((if form.2 then PseudoOp.framel form.1 else PseudoOp.frame form.1).expand).getD []

@[simp] theorem formOps_end (bs : List Octet) : formOps (bs, false) = bs.map Instr.data ++ [.endFrame] := rfl
@[simp] theorem formOps_dlast (bs : List Octet) (b : Octet) :
    formOps (bs ++ [b], true) = bs.map Instr.data ++ [.dlast b] := by
  simp [formOps, PseudoOp.expand, framelOps_append]

/-- The operations of complete frames and of the octets of an open one. -/
def formsOps (forms : List (List Octet × Bool) × List Octet) : List Instr :=
  forms.1.flatMap formOps ++ forms.2.map Instr.data

/-- The input forms of a list of words that follows the octets `acc` of an open frame. -/
def inputFormsFrom (acc : List Octet) (ws : List InWord) : List (List Octet × Bool) × List Octet :=
  cutAt InWord.last InWord.octets (fun bs w => (bs, w.keep)) acc ws

theorem inputForms_eq (ws : List InWord) : inputForms ws = inputFormsFrom [] ws := rfl

theorem inputFormsFrom_cons_last {w : InWord} (hw : w.last = true) (acc : List Octet) (ws : List InWord) :
    inputFormsFrom acc (w :: ws) =
      ((acc ++ w.octets, w.keep) :: (inputFormsFrom [] ws).1, (inputFormsFrom [] ws).2) := by
  simp [inputFormsFrom, cutAt, hw]

theorem inputFormsFrom_cons_inner {w : InWord} (hw : w.last = false) (acc : List Octet) (ws : List InWord) :
    inputFormsFrom acc (w :: ws) = inputFormsFrom (acc ++ w.octets) ws := by
  simp [inputFormsFrom, cutAt, hw]

/-- The forms hold the operations that are not `NULL`, in order. -/
theorem formsOps_inputFormsFrom (acc : List Octet) (ws : List InWord) :
    formsOps (inputFormsFrom acc ws) = acc.map Instr.data ++ (nonNullWords ws).map decode := by
  induction ws generalizing acc with
  | nil => simp [formsOps, inputFormsFrom, cutAt, nonNullWords]
  | cons w ws ih =>
    obtain ⟨l, k, d, rfl⟩ := exists_inWord w
    cases l with
    | false =>
      rw [inputFormsFrom_cons_inner (inWord_last ..), ih]
      cases k with
      | false => simp [nonNullWords_cons_null]
      | true => simp [nonNullWords_cons_keep]
    | true =>
      have hrest := ih []
      rw [inputFormsFrom_cons_last (inWord_last ..), nonNullWords_cons_last (inWord_last ..)]
      cases k with
      | false => simpa [formsOps] using hrest
      | true => simpa [formsOps] using hrest

theorem formsOps_inputForms (ws : List InWord) : formsOps (inputForms ws) = (nonNullWords ws).map decode := by
  rw [inputForms_eq, formsOps_inputFormsFrom, List.map_nil, List.nil_append]

/-- Settles O36: without its `NULL` words a run is one over the operations that its forms hold. -/
theorem theRunDependsOnlyOnTheFrames : Obligations.TheRunDependsOnlyOnTheFrames := by
  unfold Obligations.TheRunDependsOnlyOnTheFrames
  intro ws ws' s hs h
  have hspec := emptyRegs_specified hs
  have hops : (nonNullWords ws).map decode = (nonNullWords ws').map decode := by
    rw [← formsOps_inputForms, h, formsOps_inputForms]
  calc runWords ws s
      = runWords (nonNullWords ws) s := (runWords_nonNullWords ws hspec).symm
    _ = runWords (nonNullWords ws') s := runWords_congr hops s
    _ = runWords ws' s := runWords_nonNullWords ws' hspec

/-! Runs that end on a frame boundary (70_reset_and_hazards.md R114) -/

/-- On a frame boundary the words that are not `NULL` are none, or end with a word with `last = 1`. -/
theorem nonNullWords_of_onFrameBoundary {ws : List InWord} (h : onFrameBoundary ws = true) :
    nonNullWords ws = [] ∨ ∃ front w, nonNullWords ws = front ++ [w] ∧ w.last = true := by
  unfold onFrameBoundary at h
  split at h
  · next hnone => exact .inl (List.getLast?_eq_none_iff.mp hnone)
  · next w hsome =>
    obtain ⟨front, hfront⟩ := List.getLast?_eq_some_iff.mp hsome
    exact .inr ⟨front, w, hfront, h⟩

/-- Settles O41: without its `NULL` words the run is empty or ends with a word with `last = 1`. -/
theorem aRunThatEndsOnAFrameBoundaryEndsEmpty : Obligations.ARunThatEndsOnAFrameBoundaryEndsEmpty := by
  unfold Obligations.ARunThatEndsOnAFrameBoundaryEndsEmpty
  intro ws s hs hend
  have hspec := emptyRegs_specified hs
  rw [← runWords_nonNullWords ws hspec]
  obtain hnone | ⟨front, w, hwords, hw⟩ := nonNullWords_of_onFrameBoundary hend
  · exact ⟨s, by rw [hnone, runWords_nil], hs⟩
  · obtain ⟨t, ht, -⟩ := runWords_completes (front ++ [w]) hspec
    exact ⟨t, by rw [hwords, ht], emptyRegs_of_runWords_last hw ht⟩

/-- Refutes O42: three `DATA` words end a group, not a frame, and leave empty registers. -/
theorem not_aRunEndsEmptyIffOnAFrameBoundary : ¬ Obligations.ARunEndsEmptyIffOnAFrameBoundary := by
  unfold Obligations.ARunEndsEmptyIffOnAFrameBoundary
  intro h
  have hiff := h [0x100#10, 0x100#10, 0x100#10]
    { cnt := 0#2, hold := 0x0000#16, input := [], output := [0x141414141#34] } rfl
  exact absurd (hiff.mp ⟨rfl, rfl⟩) (by decide)

end Sys2Proof.Proofs

/-! The frames of both streams as pieces of their lists (20_memory.md section 1), and the words of one frame
(41_stream_ops.md section 4): each full group gives one `Q`, and the word with `last = 1` gives the text
of the octets left, in a `QL`, or an `EL` where none are left. -/

namespace Sys2Proof.Proofs

open Sys2Proof.Machine Sys2Proof.Laws

/-! Cutting a list at its ends -/

section Cut

variable {α β γ : Type} {ends : α → Bool} {payload : α → List β} {closes : List β → α → γ}

/-- Elements that end no piece lengthen the open one by what they carry. -/
theorem cutAt_append_inner {l : List α} (hl : ∀ x ∈ l, ends x = false) (acc : List β) (l' : List α) :
    cutAt ends payload closes acc (l ++ l') = cutAt ends payload closes (acc ++ l.flatMap payload) l' := by
  induction l generalizing acc with
  | nil => simp
  | cons x l ih =>
    obtain ⟨hx, hl⟩ := List.forall_mem_cons.mp hl
    simp [cutAt, hx, ih hl]

/-- The first piece reaches to the first element that ends one. -/
theorem cutAt_first_piece {l : List α} (hl : ∀ x ∈ l, ends x = false) {x : α} (hx : ends x = true) (l' : List α) :
    cutAt ends payload closes [] (l ++ x :: l') =
      (closes ((l ++ [x]).flatMap payload) x :: (cutAt ends payload closes [] l').1,
        (cutAt ends payload closes [] l').2) := by
  rw [cutAt_append_inner hl]
  simp [cutAt, hx]

/-- Without such an element the one piece is open. -/
theorem cutAt_open_piece {l : List α} (hl : ∀ x ∈ l, ends x = false) :
    cutAt ends payload closes [] l = ([], l.flatMap payload) := by
  have h := cutAt_append_inner (payload := payload) (closes := closes) hl [] []
  rwa [List.append_nil, List.nil_append] at h

/-- What the elements with a mark carry, in order. -/
theorem flatMap_if_eq_filter (marked : α → Bool) (l : List α) :
    (l.flatMap fun x => if marked x then payload x else []) = ((l.filter marked).map payload).flatten := by
  induction l with
  | nil => rfl
  | cons x l ih => cases hx : marked x <;> simp [hx, ih]

end Cut

/-- The four codes of a word's quad, as slices of the word (30_encoding.md R42). -/
theorem bytes4_sym (o : OutWord) :
    bytes4 o.sym = [o.extractLsb' 24 8, o.extractLsb' 16 8, o.extractLsb' 8 8, o.extractLsb' 0 8] := by
  simp [bytes4, OutWord.sym, slice_of_slice]

/-- Settles O31: both streams are cut in the same way, at the words with `last = 1`. -/
theorem framesAreTheStreamsCutAtTheirEnds : Obligations.FramesAreTheStreamsCutAtTheirEnds := by
  unfold Obligations.FramesAreTheStreamsCutAtTheirEnds
  refine ⟨fun ws ws' w hws hw => cutAt_first_piece (ends := InWord.last) hws hw ws',
    fun ws hws => cutAt_open_piece (ends := InWord.last) hws,
    fun os os' o hos ho => cutAt_first_piece (ends := OutWord.last) hos ho os',
    fun os hos => cutAt_open_piece (ends := OutWord.last) hos, fun ws os => ⟨?octets, ?text⟩⟩
  case octets =>
    have h := flatMap_if_eq_filter (payload := fun w : InWord => [w.data]) InWord.keep ws
    rw [← List.flatMap_def, ← List.map_eq_flatMap] at h
    exact h
  case text =>
    have h : textOf os = ((os.filter OutWord.keep).map fun o => bytes4 o.sym).flatten :=
      flatMap_if_eq_filter OutWord.keep os
    simp only [bytes4_sym] at h
    exact h

/-! The state a run leaves -/

/-- The rest of the open frame is what the registers hold. -/
theorem OpenFrame.drop_full {g r : List Octet} {s : State} (h : OpenFrame g r s) :
    (g ++ r).drop (3 * ((g ++ r).length / 3)) = r := by
  have hsplit := List.take_append_drop (3 * ((g ++ r).length / 3)) (g ++ r)
  rw [h.take_full] at hsplit
  exact List.append_cancel_left hsplit

/-- Settles O38: the open frame is its full groups and the octets that `cnt` counts and `hold` holds. -/
theorem theRegistersHoldTheOpenGroup : Obligations.TheRegistersHoldTheOpenGroup := by
  unfold Obligations.TheRegistersHoldTheOpenGroup
  intro ws s t hs ht
  obtain ⟨t', -, g, r, hrun, -, hopen, hin, -⟩ := (OpenFrame.of_emptyRegs hs).runWords_frames ws
  obtain rfl : t' = t := Host.Outcome.next.inj (hrun.symm.trans ht)
  rw [List.append_nil, ← inputFrames_eq] at hin
  have hheld := hopen.held
  rw [hin, hopen.drop_full]
  refine ⟨hopen.cnt_toNat, ?_⟩
  generalize t'.cnt = c, t'.hold = h at hheld ⊢
  cases hheld <;> rfl

/-! The words of one frame -/

@[simp] theorem octetsOf_nil : octetsOf [] = [] := rfl
@[simp] theorem octetsOf_cons (w : InWord) (ws : List InWord) : octetsOf (w :: ws) = w.octets ++ octetsOf ws := rfl
@[simp] theorem octetsOf_append (ws ws' : List InWord) : octetsOf (ws ++ ws') = octetsOf ws ++ octetsOf ws' :=
  List.flatMap_append

theorem accept_emitted_form {w : InWord} {s t : State} {o : OutWord} (h : accept w s = .next t)
    (ho : t.output = s.output ++ [o]) : (∃ q, o = wordQ q) ∨ (∃ q, o = wordQL q) ∨ o = wordEL := by
  obtain ⟨e, he, hemitted⟩ := exec_emitted_of_append h ho
  exact effect_emitted_form he hemitted

/-- What a word that ends no frame emits is a `Q`, if anything. -/
theorem accept_inner_quads {w : InWord} {s t : State} {e : Option OutWord} (h : accept w s = .next t)
    (hout : t.output = s.output ++ e.toList) (hinner : ∀ o ∈ e, o.last = false) : 
    ∃ quads : List Quad, e.toList = quads.map wordQ := by
  cases e with
  | none => exact ⟨[], rfl⟩
  | some o =>
    have ho := hinner o rfl
    obtain ⟨q, rfl⟩ | ⟨q, rfl⟩ | rfl := accept_emitted_form h hout
    · exact ⟨[q], rfl⟩
    · simp at ho
    · simp at ho

/-- Words that end no frame give one `Q` for each group they complete. -/
theorem OpenFrame.runWords_inner {ws : List InWord} (hws : ∀ w ∈ ws, w.last = false) {g r : List Octet} {s : State}
    (h : OpenFrame g r s) :
    ∃ (t : State) (quads : List Quad) (g' r' : List Octet), runWords ws s = .next t ∧
      t.output = s.output ++ quads.map wordQ ∧ OpenFrame g' r' t ∧
      g ++ r ++ octetsOf ws = g' ++ r' ∧ refEncode g ++ textOf (quads.map wordQ) = refEncode g' := by
  induction ws generalizing g r s with
  | nil => exact ⟨s, [], g, r, rfl, by simp, h, by simp, by simp⟩
  | cons w ws ih =>
    obtain ⟨hw, hws⟩ := List.forall_mem_cons.mp hws
    obtain ⟨u, e, g₁, r₁, hu, huout, he, hsplit, htext, hopen⟩ := h.accept_inner hw
    obtain ⟨quads₁, hquads₁⟩ := accept_inner_quads hu huout he
    obtain ⟨t, quads, g', r', hrun, hout, ht, hin, htext'⟩ := ih hws hopen
    refine ⟨t, quads₁ ++ quads, g', r', by simp [hu, hrun], by simp [hout, huout, hquads₁], ht, ?_, ?_⟩
    · rw [← hin, ← hsplit, octetsOf_cons]
      simp only [List.append_assoc]
    · rw [List.map_append, textOf_append, ← hquads₁, ← List.append_assoc, htext, htext']

/-! The last word of a frame -/

theorem refEncode_eq_nil_iff {bs : List Octet} : refEncode bs = [] ↔ bs = [] := by
  rw [← List.length_eq_zero_iff, refEncode_length, ← List.length_eq_zero_iff]
  omega

theorem octets_eq_nil_iff {w : InWord} : w.octets = [] ↔ w.keep = false := by
  cases hk : w.keep <;> simp [InWord.octets, hk]

/-- The octets held are none exactly where the open frame is full groups. -/
theorem OpenFrame.held_eq_nil_iff {g r : List Octet} {s : State} (h : OpenFrame g r s) :
    r = [] ↔ (g ++ r).length % 3 = 0 := by
  have hg := h.full
  have hr := h.held.length_lt
  rw [← List.length_eq_zero_iff, List.length_append]
  omega

/-- The word that ends a frame gives an `EL` where no octet is left to encode, a `QL` otherwise. -/
theorem OpenFrame.accept_last_word {g r : List Octet} {s : State} (h : OpenFrame g r s) {w : InWord}
    (hw : w.last = true) :
    ∃ t o, accept w s = .next t ∧ t.output = s.output ++ [o] ∧ EmptyRegs t ∧
      refEncode g ++ wordText o = refEncode (g ++ r ++ w.octets) ∧
      if w.keep = false ∧ (g ++ r).length % 3 = 0 then o = wordEL else ∃ q, o = wordQL q := by
  obtain ⟨t, o, ht, hout, ho, htext, -⟩ := h.accept_last hw
  have hempty : EmptyRegs t := emptyRegs_of_runWords_last (ws := []) hw ((runWords_singleton w s).trans ht)
  refine ⟨t, o, ht, hout, hempty, htext, ?_⟩
  have hrest : wordText o = refEncode (r ++ w.octets) := by
    rw [List.append_assoc, refEncode_append_of_full g _ h.full] at htext
    exact List.append_cancel_left htext
  have hnone : wordText o = [] ↔ w.keep = false ∧ (g ++ r).length % 3 = 0 := by
    rw [hrest, refEncode_eq_nil_iff, List.append_eq_nil_iff, h.held_eq_nil_iff, octets_eq_nil_iff, and_comm]
  obtain ⟨q, rfl⟩ | ⟨q, rfl⟩ | rfl := accept_emitted_form ht hout
  · simp at ho
  · rw [if_neg (by rw [← hnone, wordText_wordQL]; exact List.cons_ne_nil _ _)]
    exact ⟨q, rfl⟩
  · rw [if_pos (hnone.mp wordText_wordEL)]

/-- From empty registers the words of one frame give a `Q` for each full group, then a word that ends the frame. -/
theorem runWords_frame_words {front : List InWord} {final : InWord} (hfront : ∀ w ∈ front, w.last = false)
    (hfinal : final.last = true) {s : State} (hs : EmptyRegs s) :
    ∃ (t : State) (quads : List Quad) (o : OutWord), runWords (front ++ [final]) s = .next t ∧
      t.output = s.output ++ (quads.map wordQ ++ [o]) ∧ EmptyRegs t ∧
      textOf (quads.map wordQ ++ [o]) = refEncode (octetsOf front ++ final.octets) ∧
      if final.keep = false ∧ (octetsOf front).length % 3 = 0 then o = wordEL else ∃ q, o = wordQL q := by
  obtain ⟨u, quads, g, r, hu, huout, hopen, hsplit, htext⟩ := (OpenFrame.of_emptyRegs hs).runWords_inner hfront
  obtain ⟨t, o, ht, hout, hempty, hlast, hform⟩ := hopen.accept_last_word hfinal
  have hoctets : octetsOf front = g ++ r := hsplit
  rw [hoctets]
  refine ⟨t, quads, o, ?_, ?_, hempty, ?_, hform⟩
  · rw [runWords_append, hu, andThen_next, runWords_singleton, ht]
  · rw [hout, huout, List.append_assoc]
  · rw [refEncode_nil, List.nil_append] at htext
    rw [← hlast, ← htext]
    simp

/-- The state with empty registers and the given output. -/
theorem eq_emptied_of_emptyRegs {s t : State} {out : List OutWord} (ht : EmptyRegs t) (hinput : t.input = s.input)
    (hout : t.output = out) : t = { s with cnt := 0#2, hold := 0x0000#16, output := out } := by
  obtain ⟨hcnt, hhold⟩ := ht
  rw [← hcnt, ← hhold, ← hinput, ← hout]

/-- Settles O32: the inner words emit `Q` words with the text of the full groups, the last word the rest. -/
theorem oneFrameGivesExactlyItsEncoding : Obligations.OneFrameGivesExactlyItsEncoding := by
  unfold Obligations.OneFrameGivesExactlyItsEncoding
  rintro ws bs s hs ⟨hoctets, front, final, rfl, hfinal, hfront⟩
  obtain ⟨t, quads, o, hrun, hout, hempty, htext, hform⟩ := runWords_frame_words hfront hfinal hs
  have hbs : octetsOf front ++ final.octets = bs := by rw [← hoctets]; simp
  refine ⟨quads.map wordQ, o, ?_, by rw [htext, hbs], ?_, by simp⟩
  · rw [hrun, ← eq_emptied_of_emptyRegs hempty (runWords_input hrun) hout]
  · split at hform
    · rw [hform, wordEL_last]
    · obtain ⟨q, rfl⟩ := hform
      exact wordQL_last q

/-! The number of output words of a frame -/

/-- Each word with `keep = 1` has four symbols. -/
theorem textOf_length (os : List OutWord) : (textOf os).length = 4 * (os.filter OutWord.keep).length := by
  induction os with
  | nil => rfl
  | cons o os ih =>
    cases hk : o.keep <;> simp [wordText, hk, ih]
    omega

/-- The text of `bs` takes one word with `keep = 1` for each group begun. -/
theorem filter_keep_length {os : List OutWord} {bs : List Octet} (h : textOf os = refEncode bs) :
    (os.filter OutWord.keep).length = (bs.length + 2) / 3 := by
  have hlength := congrArg List.length h
  rw [textOf_length, refEncode_length] at hlength
  exact Nat.eq_of_mul_eq_mul_left (by decide) hlength

@[simp] theorem wordQ_keep (q : Quad) : (wordQ q).keep = true := outWord_keep _ _ _
@[simp] theorem wordQL_keep (q : Quad) : (wordQL q).keep = true := outWord_keep _ _ _
@[simp] theorem wordEL_keep : wordEL.keep = false := outWord_keep _ _ _

/-- `Q` words and one word more have symbols, save that word if it is the `EL`. -/
theorem filter_keep_quads (quads : List Quad) (o : OutWord) :
    ((quads.map wordQ ++ [o]).filter OutWord.keep).length = quads.length + o.keep.toNat := by
  cases ho : o.keep <;> simp [List.filter_map, ho]

@[simp] theorem octets_encode_end : (encode .endFrame).octets = [] := inWord_octets ..
@[simp] theorem octets_encode_dlast (d : Octet) : (encode (.dlast d)).octets = [d] := inWord_octets ..

/-- The words of `FRAME`: an `EL` stands last exactly where the octets are full groups. -/
theorem runWords_frame_count (bs : List Octet) {s : State} (hs : EmptyRegs s) :
    ∃ (t : State) (outs : List OutWord),
      runWords ((bs.map Instr.data ++ [Instr.endFrame]).map encode) s = .next t ∧ t.output = s.output ++ outs ∧
        outs.length = bs.length / 3 + 1 ∧ (outs.filter OutWord.keep).length = (bs.length + 2) / 3 ∧
          (outs.getLast? = some wordEL ↔ bs.length % 3 = 0) := by
  obtain ⟨t, quads, o, hrun, hout, -, htext, hform⟩ :=
    runWords_frame_words (final := encode .endFrame) (dataWords_inner bs) (inWord_last ..) hs
  rw [octetsOf_dataWords, octets_encode_end, List.append_nil] at htext
  simp only [octetsOf_dataWords, show (encode .endFrame).keep = false from inWord_keep .., true_and] at hform
  have hkept := filter_keep_length htext
  refine ⟨t, _, by rwa [List.map_append], hout, ?_, hkept, ?_⟩
  · rw [filter_keep_quads] at hkept
    rw [List.length_append, List.length_map, List.length_singleton]
    split at hform
    · next h =>
      rw [hform, wordEL_keep, Bool.toNat_false] at hkept
      omega
    · next h =>
      obtain ⟨q, rfl⟩ := hform
      rw [wordQL_keep, Bool.toNat_true] at hkept
      omega
  · rw [List.getLast?_concat]
    split at hform
    · next h => simp [hform, h]
    · next h =>
      obtain ⟨q, rfl⟩ := hform
      simpa [wordQL_ne_wordEL] using h

/-- The words of `FRAMEL`, the last octet in a `DLAST`, all have symbols. -/
theorem runWords_framel_count (bs : List Octet) (b : Octet) {s : State} (hs : EmptyRegs s) :
    ∃ (t : State) (outs : List OutWord),
      runWords ((bs.map Instr.data ++ [Instr.dlast b]).map encode) s = .next t ∧ t.output = s.output ++ outs ∧
        outs.length = ((bs ++ [b]).length + 2) / 3 ∧ (∀ w ∈ outs, w.keep = true) ∧
          ∃ (front : List OutWord) (q : Quad), outs = front ++ [outWord true true q] ∧ ∀ w ∈ front, w.last = false := by
  obtain ⟨t, quads, o, hrun, hout, -, htext, hform⟩ :=
    runWords_frame_words (final := encode (.dlast b)) (dataWords_inner bs) (inWord_last ..) hs
  rw [octetsOf_dataWords, octets_encode_dlast] at htext
  rw [show (encode (.dlast b)).keep = true from inWord_keep ..] at hform
  obtain ⟨q, rfl⟩ : ∃ q, o = wordQL q := by simpa using hform
  have hkept := filter_keep_length htext
  rw [filter_keep_quads, wordQL_keep, Bool.toNat_true] at hkept
  refine ⟨t, _, by rwa [List.map_append], hout, ?_, List.forall_mem_append.mpr ⟨by simp, by simp⟩,
    quads.map wordQ, q, rfl, by simp⟩
  rw [List.length_append, List.length_map, List.length_singleton, hkept]

/-- Settles O34: the words with symbols are those of the text; only `FRAME` can end in a word without. -/
theorem wordsPerFrameFollowItsLength : Obligations.WordsPerFrameFollowItsLength := by
  unfold Obligations.WordsPerFrameFollowItsLength
  refine fun bs ops s hs => ⟨fun hframe => ?_, fun hframel => ?_⟩
  · obtain rfl : bs.map Instr.data ++ [Instr.endFrame] = ops := Option.some.inj hframe
    exact runWords_frame_count bs hs
  · induction bs using List.reverseRecOn with
    | nil => exact absurd hframel (by simp [PseudoOp.expand, framelOps])
    | append_singleton bs b _ =>
      obtain rfl : bs.map Instr.data ++ [Instr.dlast b] = ops :=
        Option.some.inj ((framelOps_append bs b).symm.trans hframel)
      exact runWords_framel_count bs b hs

end Sys2Proof.Proofs

/-! The invariant of the registers (10_state.md R23) and the shapes of the output words (30_encoding.md R43): every
operation keeps both, so steps, clock edges and traces of the pins do. -/

namespace Sys2Proof.Proofs

open Sys2Proof.Machine Sys2Proof.Laws

/-! The shapes of the words emitted -/

@[simp] theorem isAlpha_symCode (i : Index) : isAlpha (symCode i) = true := by simp [isAlpha, symCode_mem]

/-- The shape of a last quad in terms of its four codes. -/
theorem lastQuadShape_of_bytes4 {q : Quad} {a b c d : Sym} (h : bytes4 q = [a, b, c, d]) :
    lastQuadShape q =
      (isAlpha a && isAlpha b && ((isAlpha c && (isAlpha d || d == pad)) || (c == pad && d == pad))) := by
  simp only [bytes4, List.cons.injEq, and_true] at h
  obtain ⟨rfl, rfl, rfl, rfl⟩ := h
  rfl

@[simp] theorem wordShape_wordQ (q : Quad) : wordShape (wordQ q) = (bytes4 q).all isAlpha := by
  simp [wordShape, wordQ]
@[simp] theorem wordShape_wordQL (q : Quad) : wordShape (wordQL q) = lastQuadShape q := by
  simp [wordShape, wordQL]
@[simp] theorem wordShape_wordEL : wordShape wordEL = true := by
  simp [wordShape, wordEL]

@[simp] theorem all_isAlpha_q4 (v : Group) : (bytes4 (q4 v)).all isAlpha = true := by simp [bytes4_q4]
@[simp] theorem lastQuadShape_q4 (v : Group) : lastQuadShape (q4 v) = true := by
  simp [lastQuadShape_of_bytes4 (bytes4_q4 v)]
@[simp] theorem lastQuadShape_q1 (a : Octet) : lastQuadShape (q1 a) = true := by
  simp [lastQuadShape_of_bytes4 (bytes4_q1 a)]
@[simp] theorem lastQuadShape_q2 (a b : Octet) : lastQuadShape (q2 a b) = true := by
  simp [lastQuadShape_of_bytes4 (bytes4_q2 a b)]

/-- Every word an operation emits has one of the three shapes. -/
theorem wordShape_of_effect {i : Instr} {c : Cnt} {h : Hold} {e : Effect} {o : OutWord}
    (he : effectOf i c h = some e) (ho : e.emitted = some o) : wordShape o = true := by
  rcases effect_cases he with ⟨_, _, rfl⟩ | ⟨_, _, _, rfl⟩ | ⟨_, _, _, rfl⟩ | ⟨_, _, _, rfl⟩ | ⟨_, _, rfl⟩ |
    ⟨_, _, rfl⟩ | ⟨_, _, rfl⟩ | ⟨_, _, _, rfl⟩ | ⟨_, _, _, rfl⟩ | ⟨_, _, _, rfl⟩ <;> simp at ho <;> simp [← ho]

/-! The invariant -/

theorem regInv_of_emptyRegs {s : State} (h : EmptyRegs s) : RegInv s := by
  obtain ⟨hcnt, hhold⟩ := h
  exact ⟨by rw [hcnt]; decide, fun _ => hhold, fun h => absurd (hcnt.symm.trans h) (by decide)⟩

theorem regInv_of_one_held {s : State} (hc : s.cnt = 1#2) (hh : secondHeld s.hold = 0x00#8) : RegInv s :=
  ⟨by rw [hc]; decide, fun h => absurd (hc.symm.trans h) (by decide), fun _ => hh⟩

theorem regInv_of_two_held {s : State} (hc : s.cnt = 2#2) : RegInv s :=
  ⟨by rw [hc]; decide, fun h => absurd (hc.symm.trans h) (by decide), fun h => absurd (hc.symm.trans h) (by decide)⟩

/-- `NULL` leaves the registers; `DATA` puts its octet over zeros or beside the first; the others empty them. -/
theorem exec_regInv {i : Instr} {s t : State} (hs : RegInv s) (h : exec i s = .next t) : RegInv t := by
  obtain ⟨e, he, rfl⟩ := exec_next h
  rcases effect_cases he with ⟨_, _, rfl⟩ | ⟨d, _, _, rfl⟩ | ⟨_, _, _, rfl⟩ | ⟨_, _, _, rfl⟩ | ⟨_, _, rfl⟩ |
    ⟨_, _, rfl⟩ | ⟨_, _, rfl⟩ | ⟨_, _, _, rfl⟩ | ⟨_, _, _, rfl⟩ | ⟨_, _, _, rfl⟩
  case inl => exact hs
  case inr.inl => exact regInv_of_one_held rfl (secondHeld_cat d 0x00#8)
  case inr.inr.inl => exact regInv_of_two_held rfl
  all_goals exact regInv_of_emptyRegs ⟨rfl, rfl⟩

theorem exec_goodState {i : Instr} {s t : State} (hs : GoodState s) (h : exec i s = .next t) : GoodState t := by
  obtain ⟨hregs, hout⟩ := hs
  refine ⟨exec_regInv hregs h, ?_⟩
  obtain ⟨e, he, rfl⟩ := exec_next h
  cases ho : e.emitted with
  | none => exact hout
  | some o => simp [hout, wordShape_of_effect he ho]

/-- The invariant does not speak of the input stream. -/
theorem goodState_with_input {s : State} (hs : GoodState s) (ws : List InWord) : GoodState { s with input := ws } := hs

theorem resetStep_goodState {s : State} (hs : GoodState s) : GoodState s.resetStep := by
  obtain ⟨-, hout⟩ := hs
  exact ⟨regInv_of_emptyRegs ⟨rfl, rfl⟩, hout⟩

/-- Settles O43: a step performs one operation, or holds the state. -/
theorem stepKeepsTheInvariant : Obligations.StepKeepsTheInvariant := by
  unfold Obligations.StepKeepsTheInvariant
  intro s t hs h
  obtain ⟨-, rfl⟩ | ⟨w, ws, -, haccept⟩ := step_cases h
  · exact hs
  · exact exec_goodState (goodState_with_input hs ws) haccept

/-- Settles O44: a clock edge resets the registers, performs one operation, or holds the state. -/
theorem aClockEdgeKeepsTheInvariant : Obligations.AClockEdgeKeepsTheInvariant := by
  unfold Obligations.AClockEdgeKeepsTheInvariant
  intro p s t hs h
  obtain ⟨-, rfl⟩ | ⟨-, -, haccept⟩ | ⟨-, -, rfl⟩ := cycle_cases h
  · exact resetStep_goodState hs
  · exact exec_goodState hs haccept
  · exact hs

/-- A step from a specified phase completes. -/
theorem step_completes {s : State} (hs : s.cnt ≠ 3#2) : ∃ t, step s = .next t := by
  cases hinput : s.input with
  | nil => exact ⟨s, step_of_nil hinput⟩
  | cons w ws =>
    obtain ⟨t, ht, -⟩ := accept_completes w (s := { s with input := ws }) hs
    exact ⟨t, (step_of_cons hinput).trans ht⟩

/-- Settles O45: each step completes because the invariant excludes phase 3, and keeps the invariant. -/
theorem noRunFromAGoodStateStops : Obligations.NoRunFromAGoodStateStops := by
  unfold Obligations.NoRunFromAGoodStateStops
  intro n
  induction n with
  | zero => exact fun s hs => ⟨s, rfl, hs⟩
  | succ n ih =>
    intro s hs
    obtain ⟨t, ht⟩ := step_completes hs.1.1
    obtain ⟨u, hu, hgood⟩ := ih t (stepKeepsTheInvariant s t hs ht)
    exact ⟨u, (core_run_succ n ht).trans hu, hgood⟩

theorem reset_goodState : GoodState State.reset := ⟨regInv_of_emptyRegs ⟨rfl, rfl⟩, rfl⟩

/-- Settles O46: its registers are empty and nothing has been emitted. -/
theorem resetStateIsEmptyAndGood : Obligations.ResetStateIsEmptyAndGood := by
  unfold Obligations.ResetStateIsEmptyAndGood
  exact ⟨reset_cnt, reset_hold, reset_input, reset_output, reset_goodState⟩

end Sys2Proof.Proofs

/-! The clocked block (10_state.md section 2, 70_reset_and_hazards.md): its clock edges against the runs of words, the
words that cross the output port, and the block before its first reset step. -/

namespace Sys2Proof.Proofs

open Sys2Proof.Machine Sys2Proof.Laws

/-! The clock edge by the pins -/

theorem accepted_eq_true_iff {p : InPins} :
    p.accepted = true ↔ p.inValid = true ∧ p.outReady = true ∧ p.rst = false := by
  simp [InPins.accepted, InPins.inReady]

theorem cycle_of_accepted {p : InPins} (ha : p.accepted = true) (s : State) : cycle p s = accept p.word s := by
  obtain ⟨-, -, hr⟩ := accepted_eq_true_iff.mp ha
  simp [cycle, hr, ha]

theorem cycle_of_not_accepted {p : InPins} (hr : p.rst = false) (ha : p.accepted = false) (s : State) :
    cycle p s = .next s := by
  simp [cycle, hr, ha]

/-- Settles O54: a word is accepted exactly when it is valid and the downstream is ready. -/
theorem backPressureStallsAndNothingElseDoes : Obligations.BackPressureStallsAndNothingElseDoes := by
  unfold Obligations.BackPressureStallsAndNothingElseDoes
  refine fun p s hr => ⟨fun hready => ?stalled, fun hvalid => ?idle, fun hvalid hready hs => ?taken⟩
  case stalled => exact cycle_of_not_accepted hr (by simp [InPins.accepted, InPins.inReady, hready]) s
  case idle => exact cycle_of_not_accepted hr (by simp [InPins.accepted, hvalid]) s
  case taken =>
    obtain ⟨t, ht, -⟩ := accept_completes p.word hs
    exact ⟨t, (cycle_of_accepted (accepted_eq_true_iff.mpr ⟨hvalid, hready, hr⟩) s).trans ht, ht⟩

theorem acceptedWords_cons_accepted {p : InPins} (ha : p.accepted = true) (ps : List InPins) :
    acceptedWords (p :: ps) = p.word :: acceptedWords ps := by simp [acceptedWords, ha]

theorem acceptedWords_cons_not_accepted {p : InPins} (ha : p.accepted = false) (ps : List InPins) :
    acceptedWords (p :: ps) = acceptedWords ps := by simp [acceptedWords, ha]

/-- Settles O56: each clock edge accepts its word or keeps the state. -/
theorem clockEdgesRefineTheFoldOfTheStep : Obligations.ClockEdgesRefineTheFoldOfTheStep := by
  unfold Obligations.ClockEdgesRefineTheFoldOfTheStep
  intro ps s hrst
  induction ps generalizing s with
  | nil => rfl
  | cons p ps ih =>
    obtain ⟨hr, hrst⟩ := List.forall_mem_cons.mp hrst
    have hrest : runCycles ps = runWords (acceptedWords ps) := funext fun t => ih t hrst
    cases ha : p.accepted with
    | true => rw [acceptedWords_cons_accepted ha, runCycles_cons, runWords_cons, cycle_of_accepted ha, hrest]
    | false => rw [acceptedWords_cons_not_accepted ha, runCycles_cons, cycle_of_not_accepted hr ha, andThen_next, hrest]

/-! The output port -/

/-- All that the output pins can be: idle, or those of the effect of the offered word. -/
theorem outPins_cases {p : InPins} {s : State} {o : OutPins} (h : outPins p s = .next o) :
    (¬ (p.inValid = true ∧ p.rst = false) ∧ o = ⟨p.inReady, false, none⟩) ∨
      ∃ e, (p.inValid = true ∧ p.rst = false) ∧ effectOf (decode p.word) s.cnt s.hold = some e ∧
        o = ⟨p.inReady, e.emitted.isSome, e.emitted⟩ := by
  unfold outPins at h
  split at h
  · next hoffered =>
    split at h
    · next e he =>
      refine .inr ⟨e, by simpa using hoffered, he, ?_⟩
      rw [effect_emits he]
      exact (Host.Outcome.next.inj h).symm
    · cases h
  · next hidle => exact .inl ⟨by simpa using hidle, (Host.Outcome.next.inj h).symm⟩

/-- Settles O51: the payload is the emitted word, and `out_valid` says whether there is one. -/
theorem thePayloadPinsHaveNoValueWithoutOutValid : Obligations.ThePayloadPinsHaveNoValueWithoutOutValid := by
  unfold Obligations.ThePayloadPinsHaveNoValueWithoutOutValid
  intro p s o h hvalid
  obtain ⟨-, rfl⟩ | ⟨e, -, -, rfl⟩ := outPins_cases h
  · rfl
  · simpa using hvalid

/-- The pins of a word offered where its operation has an effect. -/
theorem outPins_of_offered {p : InPins} {s : State} {e : Effect} (hvalid : p.inValid = true) (hr : p.rst = false)
    (he : effectOf (decode p.word) s.cnt s.hold = some e) :
    outPins p s = .next ⟨p.inReady, e.emitted.isSome, e.emitted⟩ := by
  rw [outPins_of_effect he, effect_emits he]
  simp [hvalid, hr]

/-- Settles O55: the state is kept and the word is the same, so its effect is. -/
theorem anOfferedOutputWordIsHeld : Obligations.AnOfferedOutputWordIsHeld := by
  unfold Obligations.AnOfferedOutputWordIsHeld
  intro p p' s t o hr hr' hholds hpins hvalid hready hcycle
  obtain ⟨-, rfl⟩ | ⟨e, ⟨hin, -⟩, he, rfl⟩ := outPins_cases hpins
  · cases hvalid
  have hstalled : p.accepted = false := by simp [InPins.accepted, InPins.inReady, hready]
  obtain rfl : s = t := Host.Outcome.next.inj ((cycle_of_not_accepted hr hstalled s).symm.trans hcycle)
  obtain ⟨hin', hword⟩ : p'.inValid = true ∧ p'.word = p.word := by
    simpa [upstreamHolds, hin, InPins.inReady, hready] using hholds
  exact ⟨_, outPins_of_offered hin' hr' (hword ▸ he), hvalid, rfl⟩

/-- What crosses the output port in an accepting cycle is the word the operation emits. -/
theorem crossing_of_accepted {p : InPins} {s : State} {e : Effect} (ha : p.accepted = true)
    (he : effectOf (decode p.word) s.cnt s.hold = some e) : crossing p s = e.emitted.toList := by
  obtain ⟨hvalid, hready, hr⟩ := accepted_eq_true_iff.mp ha
  rw [crossing, outPins_of_offered hvalid hr he]
  cases e.emitted <;> simp [hready]

/-- In every other cycle nothing crosses it. -/
theorem crossing_of_not_accepted {p : InPins} (ha : p.accepted = false) (s : State) : crossing p s = [] := by
  unfold crossing
  split
  · next o hpins =>
    obtain ⟨-, rfl⟩ | ⟨e, ⟨hvalid, hr⟩, -, rfl⟩ := outPins_cases hpins
    · rfl
    · have hready : p.outReady = false := by
        by_contra hready
        exact absurd (accepted_eq_true_iff.mpr ⟨hvalid, by simpa using hready, hr⟩) (by simp [ha])
      simp [hready]
  · rfl
  · rfl

/-- A clock edge appends to the output stream what crosses the port in its cycle. -/
theorem cycle_output {p : InPins} {s t : State} (h : cycle p s = .next t) : t.output = s.output ++ crossing p s := by
  obtain ⟨hr, rfl⟩ | ⟨-, ha, haccept⟩ | ⟨-, ha, rfl⟩ := cycle_cases h
  · have ha : p.accepted = false := by simp [InPins.accepted, InPins.inReady, hr]
    rw [crossing_of_not_accepted ha, List.append_nil, resetStep_output]
  · obtain ⟨e, he, rfl⟩ := exec_next haccept
    rw [crossing_of_accepted ha he]
    exact emitTo_eq_append _ _
  · rw [crossing_of_not_accepted ha, List.append_nil]

theorem takenWords_cons {p : InPins} {s t : State} (h : cycle p s = .next t) (ps : List InPins) :
    takenWords (p :: ps) s = crossing p s ++ takenWords ps t := by simp [takenWords, h]

/-- Settles O57: cycle by cycle, the words appended are the words that cross. -/
theorem theDownstreamTakesExactlyTheEmittedWords : Obligations.TheDownstreamTakesExactlyTheEmittedWords := by
  unfold Obligations.TheDownstreamTakesExactlyTheEmittedWords
  intro ps s t h
  induction ps generalizing s with
  | nil =>
    obtain rfl : s = t := Host.Outcome.next.inj h
    exact (List.append_nil _).symm
  | cons p ps ih =>
    obtain ⟨u, hu, hrun⟩ := andThen_eq_next h
    rw [ih u hrun, cycle_output hu, takenWords_cons hu, List.append_assoc]

/-! Reset -/

/-- Settles O49: the reset step empties the registers and leaves the output, and a run from there is one from reset. -/
theorem aResetInMidFrameDropsTheHeldOctets : Obligations.AResetInMidFrameDropsTheHeldOctets := by
  unfold Obligations.AResetInMidFrameDropsTheHeldOctets
  intro ws ws' s t p hr _
  obtain ⟨u, v, hu, hv, hcnt, hhold, hout⟩ := runWords_as_from_reset ws' (t := t.resetStep) ⟨rfl, rfl⟩
  exact ⟨t.resetStep, u, v, cycle_of_rst hr t, rfl, hu, hv, hcnt, hhold, hout⟩

/-- Settles O52: the three edges of an unreset block, and its pins. -/
theorem nothingIsSpecifiedBeforeTheFirstReset : Obligations.NothingIsSpecifiedBeforeTheFirstReset := by
  unfold Obligations.NothingIsSpecifiedBeforeTheFirstReset
  exact fun p c h => ⟨chip_pins_unreset p c h, fun hr hvalid => chip_edge_offered hr hvalid c h,
    fun hr hvalid => chip_edge_waiting hr hvalid c h, fun hr => chip_edge_first_reset hr c h⟩

/-- A clock edge from a specified phase completes. -/
theorem cycle_completes (p : InPins) {s : State} (hs : s.cnt ≠ 3#2) : ∃ t, cycle p s = .next t := by
  cases hr : p.rst with
  | true => exact ⟨_, cycle_of_rst hr s⟩
  | false =>
    cases ha : p.accepted with
    | true =>
      obtain ⟨t, ht, -⟩ := accept_completes p.word hs
      exact ⟨t, (cycle_of_accepted ha s).trans ht⟩
    | false => exact ⟨s, cycle_of_not_accepted hr ha s⟩

/-- Every trace of the pins from a good state completes in a good state. -/
theorem runCycles_completes (ps : List InPins) {s : State} (hs : GoodState s) :
    ∃ t, runCycles ps s = .next t ∧ GoodState t := by
  induction ps generalizing s with
  | nil => exact ⟨s, rfl, hs⟩
  | cons p ps ih =>
    obtain ⟨t, ht⟩ := cycle_completes p hs.1.1
    obtain ⟨u, hu, hgood⟩ := ih (aClockEdgeKeepsTheInvariant p s t hs ht)
    exact ⟨u, by rw [runCycles_cons, ht, andThen_next, hu], hgood⟩

/-- In a specified phase the output pins have their values. -/
theorem outPins_completes (p : InPins) {s : State} (hs : s.cnt ≠ 3#2) : ∃ o, outPins p s = .next o := by
  obtain ⟨e, he⟩ := effect_exists (decode p.word) s.hold hs
  exact ⟨_, outPins_of_effect he⟩

/-- Idle clock edges leave the block unreset. -/
theorem chip_edges_waiting {qs : List InPins} (hqs : ∀ q ∈ qs, q.rst = false ∧ q.inValid = false) (ps : List InPins)
    (c : Cnt) (h : Hold) : Chip.edges (qs ++ ps) (.unreset c h) = Chip.edges ps (.unreset c h) := by
  induction qs with
  | nil => rfl
  | cons q qs ih =>
    obtain ⟨⟨hr, hvalid⟩, hqs⟩ := List.forall_mem_cons.mp hqs
    rw [List.cons_append, chip_edges_cons, chip_edge_waiting hr hvalid, andThen_next, ih hqs]

/-- Settles O53: idle edges change nothing, the first reset step gives the reset state, and from there every trace
completes with the invariant. -/
theorem theFirstResetErasesThePowerUpState : Obligations.TheFirstResetErasesThePowerUpState := by
  unfold Obligations.TheFirstResetErasesThePowerUpState
  refine fun qs ps p c h hqs => ⟨fun hr => ?reset, fun hr hvalid => ?offered⟩
  case reset =>
    obtain ⟨t, ht, hgood⟩ := runCycles_completes ps reset_goodState
    refine ⟨t, ht, hgood, ?_, fun p' => ?_⟩
    · rw [chip_edges_waiting hqs, chip_edges_cons, chip_edge_first_reset hr, andThen_next, chip_edges_live, ht,
        andThen_next]
    · obtain ⟨o, ho⟩ := outPins_completes p' hgood.1.1
      exact ⟨o, ho, ho⟩
  case offered => rw [chip_edges_waiting hqs, chip_edges_cons, chip_edge_offered hr hvalid, andThen_refused]

/-! The block fed from the input stream -/

theorem streamPins_of_nil {s : State} (h : s.input = []) (rst outReady : Bool) :
    streamPins rst outReady s =
      { rst, inValid := false, inLast := false, inKeep := false, inData := 0#8, outReady } := by
  simp [streamPins, h]

theorem streamPins_of_cons {s : State} {w : InWord} {ws : List InWord} (h : s.input = w :: ws) (rst outReady : Bool) :
    streamPins rst outReady s =
      { rst, inValid := true, inLast := w.last, inKeep := w.keep, inData := w.data, outReady } := by
  simp [streamPins, h]

@[simp] theorem streamPins_rst (rst outReady : Bool) (s : State) : (streamPins rst outReady s).rst = rst := by
  unfold streamPins
  split <;> rfl

@[simp] theorem streamPins_outReady (rst outReady : Bool) (s : State) :
    (streamPins rst outReady s).outReady = outReady := by
  unfold streamPins
  split <;> rfl

theorem takeOffered_of_not_accepted {p : InPins} (ha : p.accepted = false) (s : State) : takeOffered p s = s := by
  simp [takeOffered, ha]

/-- With a ready downstream the clock edge accepts the head word, if there is one. -/
theorem streamCycle_ready (s : State) : streamCycle false true s = step s := by
  cases hinput : s.input with
  | nil =>
    have ha : (streamPins false true s).accepted = false := by
      simp [streamPins_of_nil hinput, InPins.accepted]
    rw [streamCycle, takeOffered_of_not_accepted ha, cycle_of_not_accepted (streamPins_rst ..) ha, step_of_nil hinput]
  | cons w ws =>
    have ha : (streamPins false true s).accepted = true := by
      simp [streamPins_of_cons hinput, InPins.accepted, InPins.inReady]
    have hword : (streamPins false true s).word = w := by
      rw [streamPins_of_cons hinput]
      exact inWord_fields w
    have htake : takeOffered (streamPins false true s) s = { s with input := ws } := by simp [takeOffered, ha, hinput]
    rw [streamCycle, cycle_of_accepted ha, hword, htake, step_of_cons hinput]

/-- Settles O58: the head word is accepted when the downstream is ready; during reset and without `out_ready` no word
is taken off the stream. -/
theorem stepIsTheClockEdgeOfAReadyStream : Obligations.StepIsTheClockEdgeOfAReadyStream := by
  unfold Obligations.StepIsTheClockEdgeOfAReadyStream
  refine fun s b => ⟨streamCycle_ready s, ?reset, ?stalled⟩
  case reset =>
    have ha : (streamPins true b s).accepted = false := by simp [InPins.accepted, InPins.inReady]
    rw [streamCycle, takeOffered_of_not_accepted ha, cycle_of_rst (streamPins_rst ..)]
    rfl
  case stalled =>
    have ha : (streamPins false false s).accepted = false := by simp [InPins.accepted, InPins.inReady]
    rw [streamCycle, takeOffered_of_not_accepted ha, cycle_of_not_accepted (streamPins_rst ..) ha]

end Sys2Proof.Proofs
